-- ==== Sys2Proof/Word.lean ====
section
/-! DEFINITION. The machine's word: the 8-bit unsigned byte (00_scope.md R6, R7), and the index of a general register. -/

namespace Sys2Proof

/-- A byte: eight bits, always read as unsigned (R7). -/
abbrev Byte := BitVec 8

/-- The index of a general register, R0 to R7 (10_state.md R15). -/
abbrev RegIndex := Fin 8

end Sys2Proof
end

