-- ==== Sys2Proof/Config.lean ====
section
/-! DEFINITION. The parameters of the hardware (00_scope.md R6) and the values the spec leaves open
(93_implementation_defined.md, part 1). -/

namespace Sys2Proof

/-- The thirteen mnemonics (R1), the argument of the parameter OPCODE_BYTE(m) of R6. -/
inductive Op where
  | hlt | ldi | prn | add | sub | mul | div | cmp | push | pop | call | ret | jmp
  deriving DecidableEq, Repr

/-- SP_REG of R6: R7 is the stack pointer (10_state.md R20). -/
def Config.spReg : RegIndex := 7

/-- SP_INIT of R6. -/
def Config.spInit : Byte := 0xF4#8

/-- PC_RESET of R6. -/
def Config.pcReset : Byte := 0x00#8

/-- MEM_SIZE of R6: addresses 0 to 255. -/
def Config.memSize : Nat := 256

/-- DIV_PRESENT of R6, at its default (92_eei_decisions.md D2, 90_conflicts.md C1). DESIGN CHOICE, log entry 2. -/
def Config.divPresent : Bool := true

/-- FREE VALUE (93 U9): `alu_8bit.result` where `result_we` is 0. It is never written. Log entry 9. -/
opaque Config.aluUnwritten : BitVec 3 → Byte → Byte → Byte

/-- FREE VALUE (42 R95 gives none): `alu_8bit`'s `e`, `l` and `g`, in bits 0, 1 and 2, where `flags_we` is 0. They are never
written. Log entry 9. -/
opaque Config.aluUndrivenFlags : BitVec 3 → Byte → Byte → BitVec 3

/-- FREE VALUE (10 R16, 40 R85 give none): the data of a register read port at an index above 7. The instruction raises
InvalidRegister and does not take it. Log entry 19. -/
opaque Config.undrivenRegData : Byte → Byte

/-- FREE VALUE (20 R44 gives none): `mem_wdata` of a read, by the address read. Memory does not take it. Log entry 18. -/
opaque Config.undrivenWdata : Byte → Byte

/-- FREE VALUE (20 R44 gives none): `mem_rdata` where `mem_re` is 0, by the address. The CORE does not take it. Log entry
18. -/
opaque Config.undrivenRdata : Byte → Byte

/-- FREE VALUE (93 U10): the decoder's `fmt` for a byte that is no instruction. Log entry 9. -/
opaque Config.undrivenFmt : Byte → BitVec 2

/-- FREE VALUE (93 U10): the decoder's `is_alu` for a byte that is no instruction. Log entry 9. -/
opaque Config.undrivenIsAlu : Byte → Bool

/-- FREE VALUE (30 R64, 93 U10): the decoder's `alu_op` where `is_alu` is not 1. Log entry 9. -/
opaque Config.undrivenAluOp : Byte → BitVec 3

/-- FREE VALUE (93 U10): the decoder's `sets_pc` for a byte that is no instruction. Log entry 9. -/
opaque Config.undrivenSetsPc : Byte → Bool

/-- OPEN parameter EXIT_CODE(kind) of R6 (92 D20), less one, by the code of the fault kind: the code itself is
non-zero. Log entry 11. -/
opaque Config.exitCodePred : BitVec 3 → Nat

end Sys2Proof
end

