-- ==== Sys2Proof/Syntax.lean ====
section
/-! DEFINITION. The instructions, one constructor per row of spec/opcode_table.json (30_encoding.md R59, R63). -/

namespace Sys2Proof

/-- An instruction with its operand bytes. A register operand is the whole operand byte (R61): a value above 7 is
an instruction the machine fetches and decodes, and whose execution raises InvalidRegister. -/
inductive Instr where
  /-- Halt (R118). -/
  | hlt
  /-- Load immediate (R90). -/
  | ldi (r imm : Byte)
  /-- Print a register (R91). -/
  | prn (r : Byte)
  /-- Add (R98). -/
  | add (ra rb : Byte)
  /-- Subtract (R99). -/
  | sub (ra rb : Byte)
  /-- Multiply (R100). -/
  | mul (ra rb : Byte)
  /-- Divide (R101). -/
  | div (ra rb : Byte)
  /-- Compare (R102). -/
  | cmp (ra rb : Byte)
  /-- Push a register (R110). -/
  | push (r : Byte)
  /-- Pop into a register (R111). -/
  | pop (r : Byte)
  /-- Call through a register (R115). -/
  | call (r : Byte)
  /-- Return (R116). -/
  | ret
  /-- Jump through a register (R117). -/
  | jmp (r : Byte)
  deriving DecidableEq, Repr

end Sys2Proof
end

