-- ==== Sys2Proof/WellFormed.lean ====
section
/-! DEFINITION. Well-formed instructions: those whose register operands name R0 to R7, which are the ones the
assembly syntax can write (30_encoding.md R61, R69). Log entry 8. -/

namespace Sys2Proof

/-- The byte names one of R0 to R7 (10_state.md R16). -/
def regOk (r : Byte) : Bool := decide (r.toNat < 8)

/-- Every register operand of the instruction names a register; an immediate may be any byte (R62). -/
def Instr.wellFormed : Instr → Bool
  | .hlt => true
  | .ldi r _ => regOk r
  | .prn r => regOk r
  | .add ra rb => regOk ra && regOk rb
  | .sub ra rb => regOk ra && regOk rb
  | .mul ra rb => regOk ra && regOk rb
  | .div ra rb => regOk ra && regOk rb
  | .cmp ra rb => regOk ra && regOk rb
  | .push r => regOk r
  | .pop r => regOk r
  | .call r => regOk r
  | .ret => true
  | .jmp r => regOk r

end Sys2Proof
end

