-- ==== Sys2Proof/Decode.lean ====
section
/-! DEFINITION. The instruction_decoder block (30_encoding.md): the opcode map, operand counts and lengths, the
decoder and the encoder. -/

namespace Sys2Proof

/-- All thirteen mnemonics, in the order of the `op` codes of R64. -/
def Op.all : List Op := [.hlt, .ldi, .prn, .add, .sub, .mul, .div, .cmp, .push, .pop, .call, .ret, .jmp]

/-- OPCODE_BYTE(m), at the defaults of R63. PRESUMED by the spec itself (92 D1: general knowledge). Log entry 1. -/
def opcodeByte : Op → Byte
  | .hlt => 0b00000001#8
  | .ldi => 0b10000010#8
  | .prn => 0b01000111#8
  | .add => 0b10100000#8
  | .sub => 0b10100001#8
  | .mul => 0b10100010#8
  | .div => 0b10100011#8
  | .cmp => 0b10100111#8
  | .push => 0b01000101#8
  | .pop => 0b01000110#8
  | .call => 0b01010000#8
  | .ret => 0b00010001#8
  | .jmp => 0b01010100#8

/-- The operand count of each instruction in the source's table (R59, R63). -/
def operandCount : Op → Nat
  | .hlt | .ret => 0
  | .prn | .push | .pop | .call | .jmp => 1
  | .ldi | .add | .sub | .mul | .div | .cmp => 2

/-- `nops = ir[7:6]` (R57), for every byte. -/
def opcodeNops (ir : Byte) : BitVec 2 := ir.extractLsb' 6 2

/-- `len = ir[7:6] + 1` (R57), for every byte. -/
def opcodeLen (ir : Byte) : BitVec 3 := (opcodeNops ir).setWidth 3 + 1#3

/-- Which instruction an opcode byte selects, by its whole value (R64, R65), for a map `byte` of the parameter
OPCODE_BYTE and a value of DIV_PRESENT: with DIV absent its byte is no instruction (R63). -/
def decodeOpcodeWith (byte : Op → Byte) (divPresent : Bool) (ir : Byte) : Option Op :=
  Op.all.find? fun m => byte m == ir && (divPresent || m != .div)

/-- The machine's decoder of an opcode byte: R63's map, DIV present. -/
def decodeOpcode (ir : Byte) : Option Op := decodeOpcodeWith opcodeByte Config.divPresent ir

/-- The 4-bit `op` code of R64. -/
def opCode : Op → BitVec 4
  | .hlt => 0#4 | .ldi => 1#4 | .prn => 2#4 | .add => 3#4 | .sub => 4#4 | .mul => 5#4 | .div => 6#4
  | .cmp => 7#4 | .push => 8#4 | .pop => 9#4 | .call => 10#4 | .ret => 11#4 | .jmp => 12#4

/-- The 2-bit `fmt` code of R64: F0 = 0, F1R = 1, F2RI = 2, F2RR = 3. -/
def fmtCode : Op → BitVec 2
  | .hlt | .ret => 0#2
  | .prn | .push | .pop | .call | .jmp => 1#2
  | .ldi => 2#2
  | .add | .sub | .mul | .div | .cmp => 3#2

/-- The `alu_op` code of R64 for the five ALU instructions; the others have none. -/
def aluOpCode : Op → Option (BitVec 3)
  | .add => some 0b000#3
  | .sub => some 0b001#3
  | .mul => some 0b010#3
  | .div => some 0b011#3
  | .cmp => some 0b111#3
  | .hlt | .ldi | .prn | .push | .pop | .call | .ret | .jmp => none

/-- `sets_pc` of R64: CALL, RET and JMP write `pc` themselves. -/
def setsPc : Op → Bool
  | .call | .ret | .jmp => true
  | .hlt | .ldi | .prn | .add | .sub | .mul | .div | .cmp | .push | .pop => false

/-- The outputs of the instruction_decoder block (R64). -/
structure DecoderOut where
  valid : Bool
  op : BitVec 4
  nops : BitVec 2
  len : BitVec 3
  fmt : BitVec 2
  isAlu : Bool
  aluOp : BitVec 3
  setsPc : Bool
  deriving DecidableEq, Repr

/-- The instruction_decoder block (R64): a function of the opcode byte alone. Outputs the spec calls meaningless
are free values of Config (93 U10). -/
def instructionDecoder (ir : Byte) : DecoderOut :=
  match decodeOpcode ir with
  | some m =>
    { valid := true, op := opCode m, nops := opcodeNops ir, len := opcodeLen ir, fmt := fmtCode m,
      isAlu := (aluOpCode m).isSome, aluOp := (aluOpCode m).getD (Config.undrivenAluOp ir), setsPc := setsPc m }
  | none =>
    { valid := false, op := 15#4, nops := opcodeNops ir, len := opcodeLen ir, fmt := Config.undrivenFmt ir,
      isAlu := Config.undrivenIsAlu ir, aluOp := Config.undrivenAluOp ir, setsPc := Config.undrivenSetsPc ir }

/-- The instruction a mnemonic and its operand bytes make: `a` is the first operand byte, `b` the second; a byte the
format lacks is not used (R59, R61, R62). -/
def assemble (m : Op) (a b : Byte) : Instr :=
  match m with
  | .hlt => .hlt
  | .ldi => .ldi a b
  | .prn => .prn a
  | .add => .add a b
  | .sub => .sub a b
  | .mul => .mul a b
  | .div => .div a b
  | .cmp => .cmp a b
  | .push => .push a
  | .pop => .pop a
  | .call => .call a
  | .ret => .ret
  | .jmp => .jmp a

/-- Why bytes are no instruction. -/
inductive DecodeError where
  /-- The first byte is not in the opcode map (R66). The machine raises UnknownInstruction for it. -/
  | unknownInstruction (ir : Byte)
  /-- The bytes end before the instruction does. In memory this is an operand fetch at address 256 (40 R76). -/
  | truncated
  deriving DecidableEq, Repr

/-- The operand bytes of an instruction with `n` operands from the bytes after its opcode, and the rest. -/
def takeOperands (n : Nat) (bytes : List Byte) : Option (Byte × Byte × List Byte) :=
  match n, bytes with
  | 0, rest => some (0#8, 0#8, rest)
  | 1, a :: rest => some (a, 0#8, rest)
  | 2, a :: b :: rest => some (a, b, rest)
  | _, _ => none

/-- The decoder of bytes for any opcode map: the first instruction and the bytes after it, or why there is none. -/
def decodeWith (byte : Op → Byte) (divPresent : Bool) (bytes : List Byte) :
    Except DecodeError (Instr × List Byte) :=
  match bytes with
  | [] => .error .truncated
  | ir :: rest =>
    match decodeOpcodeWith byte divPresent ir with
    | none => .error (.unknownInstruction ir)
    | some m =>
      match takeOperands (opcodeNops ir).toNat rest with
      | none => .error .truncated
      | some (a, b, left) => .ok (assemble m a b, left)

/-- The machine's decoder of bytes: R63's map, DIV present. -/
def decode (bytes : List Byte) : Except DecodeError (Instr × List Byte) :=
  decodeWith opcodeByte Config.divPresent bytes

/-- The mnemonic of an instruction. -/
def Instr.op : Instr → Op
  | .hlt => .hlt
  | .ldi _ _ => .ldi
  | .prn _ => .prn
  | .add _ _ => .add
  | .sub _ _ => .sub
  | .mul _ _ => .mul
  | .div _ _ => .div
  | .cmp _ _ => .cmp
  | .push _ => .push
  | .pop _ => .pop
  | .call _ => .call
  | .ret => .ret
  | .jmp _ => .jmp

/-- The operand bytes of an instruction, in the order of its format (R59). -/
def operandBytes : Instr → List Byte
  | .hlt | .ret => []
  | .prn r | .push r | .pop r | .call r | .jmp r => [r]
  | .ldi r imm => [r, imm]
  | .add ra rb | .sub ra rb | .mul ra rb | .div ra rb | .cmp ra rb => [ra, rb]

/-- The encoder for any opcode map: the opcode byte, then the operand bytes at increasing addresses (20 R45). -/
def encodeWith (byte : Op → Byte) (i : Instr) : List Byte := byte i.op :: operandBytes i

/-- The machine's encoder. -/
def encode (i : Instr) : List Byte := encodeWith opcodeByte i

/-- The opcode byte of an instruction, what the step calls `ir` (00_scope.md R11). -/
def Instr.opcode (i : Instr) : Byte := opcodeByte i.op

/-- The bytes of the longest instruction laid out from a word numbered as spec/opcode_table.json numbers it: byte 0
is bits 7..0, byte 1 bits 15..8, byte 2 bits 23..16; the bits from `nbits` on are 0. -/
def tableWordBytes (nbits w : Nat) : List Byte :=
  let v := w % 2 ^ nbits
  [BitVec.ofNat 8 v, BitVec.ofNat 8 (v / 256), BitVec.ofNat 8 (v / 65536)]

/-- The instruction the decoder reads from a word of the opcode table. -/
def decodeTableWord (nbits w : Nat) : Option Instr :=
  match decode (tableWordBytes nbits w) with
  | .ok (i, _) => some i
  | .error _ => none

end Sys2Proof
end

