-- ==== Sys2Proof/Machine/State.lean ====
section
/-! DEFINITION. The machine's state (10_state.md, 20_memory.md), the ways a step can stop, and the state after
reset (10 R35, 70 R143). -/

namespace Sys2Proof.Machine

open Sys2Proof

/-- The run state of the fetch-execute machine (10 R29). -/
inductive RunState where
  | running
  | halted
  | faulted
  deriving DecidableEq, Repr

/-- The three compare flags, each in its own bit (10 R25). -/
structure Flags where
  /-- FL.E, EQUAL. -/
  e : Bool
  /-- FL.L, LESS_THAN. -/
  l : Bool
  /-- FL.G, GREATER_THAN. -/
  g : Bool
  deriving DecidableEq, Repr

/-- The eight general registers (10 R15). R7 is the stack pointer and has no other storage (10 R20). -/
structure RegFile where
  r0 : Byte
  r1 : Byte
  r2 : Byte
  r3 : Byte
  r4 : Byte
  r5 : Byte
  r6 : Byte
  r7 : Byte
  deriving DecidableEq, Repr

/-- The six kinds of error (60 R123). -/
inductive FaultKind where
  | invalidAddress
  | invalidRegister
  | divisionByZero
  | stackUnderflow
  | unknownInstruction
  | unsupportedOperation
  deriving DecidableEq, Repr

/-- An error with the offending value of its kind (60 R123 to R129). -/
inductive FaultCause where
  /-- An address above 255 (R124). -/
  | invalidAddress (addr : Nat)
  /-- A register operand byte above 7 (R125). -/
  | invalidRegister (i : Byte)
  /-- DIV with a zero divisor, and the divisor's register index (R126). -/
  | divisionByZero (rb : RegIndex)
  /-- POP or RET with SP at or above SP_INIT, and that SP (R127). -/
  | stackUnderflow (sp : Byte)
  /-- An opcode byte outside the opcode map (R128). -/
  | unknownInstruction (ir : Byte)
  /-- An ALU operation code outside the five (R129); unreachable. -/
  | unsupportedOperation (aluOp : BitVec 3)
  deriving DecidableEq, Repr

/-- The fault record (10 R31), with the widths the spec gives its fields. `kind` holds a code of 60 R123. -/
structure FaultRecord where
  kind : BitVec 3
  pc : Byte
  ir : Byte
  info : BitVec 9
  deriving DecidableEq, Repr

/-- Memory: the bytes that are not 0, as address and byte, addresses rising (20 R37). An address not listed holds 0,
as the spec says of memory that nothing has written (20 R48, 70 R144). -/
structure Memory where
  cells : List Host.Cell
  deriving DecidableEq, Repr

/-- The canonical form: addresses strictly rising and inside the 256 bytes, no byte equal to the 0 that an
unlisted address holds. -/
abbrev Memory.wf (m : Memory) : Prop :=
  m.cells.Pairwise (fun p q => p.1 < q.1) ∧ ∀ p ∈ m.cells, p.1 < Config.memSize ∧ p.2 ≠ 0#8

/-- Everything the spec gives the machine (10 R34: there is no other state). -/
structure State where
  /-- R0 to R7 (10 R15). -/
  regs : RegFile
  /-- The program counter (10 R22). -/
  pc : Byte
  /-- The flags register (10 R25). -/
  flags : Flags
  /-- RUNNING, HALTED or FAULTED (10 R29). -/
  run : RunState
  /-- The fault record (10 R31). -/
  fault : FaultRecord
  /-- The bytes emitted on the output port since reset, oldest first (10 R33). -/
  out : List Byte
  /-- The 256 bytes of memory (20 R37). -/
  mem : Memory
  deriving DecidableEq, Repr

/-- The faults that stop the MODEL. There are none: every error of this hardware is an entry into the FAULTED state
with a fault record (60 R130), which is a next state. Raised by no one; safe. -/
inductive Fault where
  deriving DecidableEq, Repr

/-- The refusals of the model. -/
inductive Refusal where
  /-- Raised by exec's arm of an instruction that has no meaning yet. Safe: the model stops. -/
  | notModelled (mnemonic : String)
  deriving DecidableEq, Repr

/-- The register file when the run starts: R0 to R6 are 0, R7 is SP_INIT (10 R35, 90 C4). -/
def RegFile.reset : RegFile := ⟨0#8, 0#8, 0#8, 0#8, 0#8, 0#8, 0#8, Config.spInit⟩

/-- The fault record before any fault. The spec leaves its content open and nothing reads it (10 R31, 93 U8):
DESIGN CHOICE, all fields 0. Log entry 5. -/
def FaultRecord.reset : FaultRecord := ⟨0#3, 0#8, 0#8, 0#9⟩

/-- The machine when reset is released, memory not yet loaded (10 R35, 70 R143, R144). -/
def State.reset : State where
  regs := RegFile.reset
  pc := Config.pcReset
  flags := ⟨false, false, false⟩
  run := .running
  fault := FaultRecord.reset
  out := []
  mem := ⟨[]⟩

end Sys2Proof.Machine
end

