-- ==== Sys2Proof/Machine/Blocks.lean ====
section
/-! DEFINITION. The stateful blocks of the CORE behind their signals: register_file (40_fetch_execute.md R85), pc_state
(10_state.md R24), flags_register (10 R28) and the output port (10 R33), which the fetch-execute machine drives (40 R84). The
signals are the spec's own (92 D14). Log entry 19. -/

namespace Sys2Proof.Machine

open Sys2Proof

/-! ## register_file -/

/-- Read a register of the file (10 R16). -/
def RegFile.get (f : RegFile) (i : RegIndex) : Byte :=
  match i with
  | 0 => f.r0
  | 1 => f.r1
  | 2 => f.r2
  | 3 => f.r3
  | 4 => f.r4
  | 5 => f.r5
  | 6 => f.r6
  | 7 => f.r7

/-- Write a register of the file (10 R17). -/
def RegFile.set (f : RegFile) (i : RegIndex) (v : Byte) : RegFile :=
  match i with
  | 0 => { f with r0 := v }
  | 1 => { f with r1 := v }
  | 2 => { f with r2 := v }
  | 3 => { f with r3 := v }
  | 4 => { f with r4 := v }
  | 5 => { f with r5 := v }
  | 6 => { f with r6 := v }
  | 7 => { f with r7 := v }

/-- The inputs of register_file (40 R85): two read indices; a write index, its data and its enable. -/
structure RegFileIn where
  raIdx : Byte
  rbIdx : Byte
  wIdx : Byte
  wData : Byte
  we : Bool
  deriving DecidableEq, Repr

/-- The outputs of register_file (40 R85). -/
structure RegFileOut where
  raData : Byte
  rbData : Byte
  sp : Byte
  idxErr : Bool
  deriving DecidableEq, Repr

/-- The register an eight-bit index names; none above 7 (10 R16). -/
def indexOf (idx : Byte) : Option RegIndex := if h : idx.toNat < 8 then some ⟨idx.toNat, h⟩ else none

/-- The eight-bit index of a register. -/
def indexByte (i : RegIndex) : Byte := BitVec.ofNat 8 i.val

/-- The data of a read port at an index (10 R16). Above 7 the read does not happen and the data is a free value. -/
def RegFile.readData (f : RegFile) (idx : Byte) : Byte :=
  match indexOf idx with
  | some i => f.get i
  | none => Config.undrivenRegData idx

/-- The `sp` output: R7 (10 R20). -/
def RegFile.spOut (f : RegFile) : Byte := f.get Config.spReg

/-- `idx_err`: one of the indices the step uses is above 7 (40 R85). -/
def idxErr (used : List Byte) : Bool := used.any fun idx => (indexOf idx).isNone

/-- The outputs of register_file. `used` says which indices the step uses, for which R85 has no signal. -/
def RegFile.outputs (f : RegFile) (p : RegFileIn) (used : List Byte) : RegFileOut :=
  { raData := f.readData p.raIdx, rbData := f.readData p.rbIdx, sp := f.spOut, idxErr := idxErr used }

/-- The register file after what its write port drives: with `we` one register is written, an index above 7 writes
nothing (10 R17). -/
def RegFile.afterWrite (f : RegFile) (wIdx wData : Byte) (we : Bool) : RegFile :=
  if we then
    match indexOf wIdx with
    | some i => f.set i wData
    | none => f
  else f

/-- The register file after what the step drives on its ports (40 R85). -/
def RegFile.next (f : RegFile) (p : RegFileIn) : RegFile := f.afterWrite p.wIdx p.wData p.we

/-- The register operand bytes of an instruction, in the order in which the step checks them (60 R132): the indices it
uses beside that of SP (10 R19). The first is on `ra_idx`, the second on `rb_idx`. -/
def registerOperandBytes : Instr → List Byte
  | .hlt | .ret => []
  | .ldi r _ | .prn r | .push r | .pop r | .call r | .jmp r => [r]
  | .add a b | .sub a b | .mul a b | .div a b | .cmp a b => [a, b]

/-! ## pc_state -/

/-- The inputs of pc_state that write it (10 R24): `pc_load` with `pc_next`, and `reset`. -/
structure PcIn where
  load : Bool
  next : Byte
  reset : Bool
  deriving DecidableEq, Repr

/-- `pc` after what the step drives (10 R24). DESIGN CHOICE: `reset` goes before `pc_load`. Log entry 19. -/
def pcAfter (pc : Byte) (p : PcIn) : Byte := if p.reset then Config.pcReset else if p.load then p.next else pc

/-- `pc_plus_len[8:0]`: the nine-bit sum of `pc` and the input `len` (10 R24). -/
def pcPlusLen (pc : Byte) (len : BitVec 3) : BitVec 9 := pc.setWidth 9 + len.setWidth 9

/-! ## flags_register -/

/-- The inputs of flags_register (10 R28): `fl_we` with `e`, `l`, `g`, and `reset`. -/
structure FlagsIn where
  we : Bool
  e : Bool
  l : Bool
  g : Bool
  reset : Bool
  deriving DecidableEq, Repr

/-- The flags after what the step drives (10 R26, R28). DESIGN CHOICE: `reset` goes before `fl_we`. Log entry 19. -/
def Flags.after (f : Flags) (p : FlagsIn) : Flags :=
  if p.reset then ⟨false, false, false⟩ else if p.we then ⟨p.e, p.l, p.g⟩ else f

/-! ## The output port -/

/-- The output port (10 R33): `out_data`, and `out_valid` for one event per PRN. -/
structure OutPort where
  data : Byte
  valid : Bool
  deriving DecidableEq, Repr

/-- The output stream after one event of the port (10 R33). -/
def streamAfter (out : List Byte) (p : OutPort) : List Byte := if p.valid then out ++ [p.data] else out

end Sys2Proof.Machine
end

