-- ==== Sys2Proof/Machine/Ops.lean ====
section
/-! DEFINITION. The named operations over registers, memory, the output port and the run state, and the one
operation that takes a fault (60_exceptions.md R130). -/

namespace Sys2Proof.Machine

open Sys2Proof

/-! ## Registers (10_state.md, section 1) -/

/-- `R[i]` (00 R9), through a read port of the file. -/
def State.getReg (s : State) (i : RegIndex) : Byte := s.regs.readData (indexByte i)

/-- `R[i] <- v` (00 R9), through the write port of the file. -/
def State.setReg (s : State) (i : RegIndex) (v : Byte) : State :=
  { s with regs := s.regs.afterWrite (indexByte i) v true }

/-- `SP`, another name for `R[7]` (10 R20): the `sp` output of the file (40 R85). -/
def State.sp (s : State) : Byte := s.regs.spOut

/-- `SP <- v`, which is `R[7] <- v` (10 R20). -/
def State.setSp (s : State) (v : Byte) : State := s.setReg Config.spReg v

/-! ## Memory (20_memory.md) -/

/-- The byte a list of cells gives for an address; 0 where it is not listed (20 R48). -/
def readCells (a : Nat) : List Host.Cell → Byte
  | [] => 0#8
  | (c, v) :: t => if a = c then v else readCells a t

/-- Put a byte that is not 0 at its place in a rising list of cells. -/
def insertCell (a : Nat) (b : Byte) : List Host.Cell → List Host.Cell
  | [] => [(a, b)]
  | (c, v) :: t =>
    if a < c then (a, b) :: (c, v) :: t
    else if a = c then (a, b) :: t
    else (c, v) :: insertCell a b t

/-- The byte at an address (20 R38). -/
def Memory.read (m : Memory) (a : Nat) : Byte := readCells a m.cells

/-- Store a byte at an address, that one cell and no other (20 R38), keeping the canonical form. -/
def Memory.write (m : Memory) (a : Nat) (b : Byte) : Memory :=
  if b = 0#8 then ⟨m.cells.filter fun p => p.1 != a⟩ else ⟨insertCell a b m.cells⟩

/-- What the CORE drives on the memory port for one access (20 R44): `mem_addr`, `mem_re`, `mem_we`, `mem_wdata`. The
address has eight bits, so the port never sees one above 255. -/
structure MemPort where
  addr : Byte
  re : Bool
  we : Bool
  wdata : Byte
  deriving DecidableEq, Repr

/-- The port of a read: `mem_re` alone. `mem_wdata` is a free value. -/
def portOfRead (addr : Byte) : MemPort := { addr := addr, re := true, we := false, wdata := Config.undrivenWdata addr }

/-- The port of a write: `mem_we` alone. -/
def portOfWrite (addr v : Byte) : MemPort := { addr := addr, re := false, we := true, wdata := v }

/-- `mem_rdata`, memory's answer to what the port drives (20 R38, R44); without `mem_re` a free value. -/
def Memory.rdata (m : Memory) (p : MemPort) : Byte := if p.re then m.read p.addr.toNat else Config.undrivenRdata p.addr

/-- Memory after what the port drives (20 R38, R44): with `mem_we` one cell is stored. -/
def Memory.afterAccess (m : Memory) (p : MemPort) : Memory := if p.we then m.write p.addr.toNat p.wdata else m

/-- `MemRead` at an address that is a byte, which is always in range (20 R40), through the port. -/
def State.load (s : State) (addr : Byte) : Byte := s.mem.rdata (portOfRead addr)

/-- `MemWrite` at an address that is a byte, which is always in range (20 R40), through the port. -/
def State.store (s : State) (addr v : Byte) : State := { s with mem := s.mem.afterAccess (portOfWrite addr v) }

/-- The CORE's range check, on its own address, before it drives the port (20 R39, R44). -/
def portAddress (addr : Nat) : Except FaultCause Byte :=
  if addr < Config.memSize then .ok (BitVec.ofNat 8 addr) else .error (.invalidAddress addr)

/-- `MemRead(addr, 1)` (20 R41): an address above 255 is an error and nothing is read. -/
def State.memRead (s : State) (addr : Nat) : Except FaultCause Byte := do
  let a ← portAddress addr
  return s.load a

/-- `MemWrite(addr, 1, v)` (20 R42): an address above 255 is an error and nothing is stored. -/
def State.memWrite (s : State) (addr : Nat) (v : Byte) : Except FaultCause State := do
  let a ← portAddress addr
  return s.store a v

/-! ## Program counter, flags, output port, run state -/

/-- `pc <- target` (10 R22): `pc_load` with `pc_next`. -/
def State.setPc (s : State) (target : Byte) : State :=
  { s with pc := pcAfter s.pc { load := true, next := target, reset := false } }

/-- Drive flags_register: with `fl_we` all three flags are written (10 R26, R28). -/
def State.driveFlags (s : State) (we : Bool) (f : Flags) : State :=
  { s with flags := s.flags.after { we := we, e := f.e, l := f.l, g := f.g, reset := false } }

/-- `emit(v)`: `out_data` with `out_valid`; the byte joins the output port's stream (10 R33). -/
def State.emit (s : State) (v : Byte) : State := { s with out := streamAfter s.out { data := v, valid := true } }

/-- `halt`: RUNNING to HALTED (10 R29). -/
def State.halt (s : State) : State := { s with run := .halted }

/-- `pc + n` as an unbounded sum (00 R8), for the operand addresses and the return address: it never wraps. -/
def pcPlus (pc : Byte) (n : Nat) : Nat := pc.toNat + n

/-! ## Taking a fault (60_exceptions.md, section 2). There is no return from one (60 R133). -/

/-- The kind codes of the fault record (60 R123). -/
def FaultKind.code : FaultKind → BitVec 3
  | .invalidAddress => 1#3
  | .invalidRegister => 2#3
  | .divisionByZero => 3#3
  | .stackUnderflow => 4#3
  | .unknownInstruction => 5#3
  | .unsupportedOperation => 6#3

/-- The kind of an error. -/
def FaultCause.kind : FaultCause → FaultKind
  | .invalidAddress _ => .invalidAddress
  | .invalidRegister _ => .invalidRegister
  | .divisionByZero _ => .divisionByZero
  | .stackUnderflow _ => .stackUnderflow
  | .unknownInstruction _ => .unknownInstruction
  | .unsupportedOperation _ => .unsupportedOperation

/-- The `info` each error records, in nine bits (60 R123). -/
def FaultCause.info : FaultCause → BitVec 9
  | .invalidAddress addr => BitVec.ofNat 9 addr
  | .invalidRegister i => i.setWidth 9
  | .divisionByZero rb => BitVec.ofNat 9 rb.val
  | .stackUnderflow sp => sp.setWidth 9
  | .unknownInstruction ir => ir.setWidth 9
  | .unsupportedOperation aluOp => aluOp.setWidth 9

/-- `raise Kind(info)` (60 R130): write the fault record and enter FAULTED; nothing else changes. `ir` is the opcode
byte of the instruction in progress (00 R11). -/
def State.raise (s : State) (c : FaultCause) (ir : Byte) : State :=
  { s with run := .faulted, fault := { kind := c.kind.code, pc := s.pc, ir := ir, info := c.info } }

/-- An instruction whose checks come before its first write (40 R77): the effect where the checks pass, and the
first failing check raised on the state as it was before the instruction where one fails (60 R131). -/
def checked (s : State) (ir : Byte) (effect : Except FaultCause State) : State :=
  match effect with
  | .ok t => t
  | .error c => s.raise c ir

/-- The sequential advance (40 R78): `pc_plus_len` if that is at most 255, else InvalidAddress raised on the state the
instruction's effects left. -/
def State.advance (s : State) (ir : Byte) : State :=
  let next := (pcPlusLen s.pc (opcodeLen ir)).toNat
  if next < Config.memSize then s.setPc (BitVec.ofNat 8 next) else s.raise (.invalidAddress next) ir

end Sys2Proof.Machine
end

