-- ==== Sys2Proof/Machine/Flags.lean ====
section
/-! DEFINITION. The one flag computation, CMP's comparison (42_alu.md R102), and the packed flags byte
(10_state.md R28). -/

namespace Sys2Proof.Machine

open Sys2Proof

/-- The flags of comparing two unsigned bytes (42 R102). -/
def compareFlags (x y : Byte) : Flags :=
  { e := decide (x.toNat = y.toNat), l := decide (x.toNat < y.toNat), g := decide (x.toNat > y.toNat) }

/-- The packed byte `FL[7:0]`, for observation only: bit 0 is E, bit 1 is G, bit 2 is L, the others 0 (10 R28). -/
def packedFlags (f : Flags) : Byte :=
  (0#5) ++ BitVec.ofBool f.l ++ BitVec.ofBool f.g ++ BitVec.ofBool f.e

end Sys2Proof.Machine
end

