-- ==== Sys2Proof/Machine/Operands.lean ====
section
/-! DEFINITION. Operand forms: register operands (30_encoding.md R61, 10_state.md R16, R17), the stack_pointer block
(43_stack.md R106) and the stack operands of PUSH, POP, CALL and RET. -/

namespace Sys2Proof.Machine

open Sys2Proof

/-- The register a register operand byte names: the whole byte is the index, and a byte above 7 is an error
(10 R16, 30 R61). -/
def regIndex (r : Byte) : Except FaultCause RegIndex :=
  match indexOf r with
  | some i => .ok i
  | none => .error (.invalidRegister r)

/-- `sp_dec` of the stack_pointer block: `(sp - 1) mod 256` (43 R106, R107). -/
def spDec (sp : Byte) : Byte := sp - 1#8

/-- `sp_inc` of the stack_pointer block: `(sp + 1) mod 256` (43 R106, R108). -/
def spInc (sp : Byte) : Byte := sp + 1#8

/-- `sp_underflow` of the stack_pointer block: `sp >= SP_INIT` (43 R106). -/
def spUnderflow (sp : Byte) : Bool := decide (Config.spInit.toNat ≤ sp.toNat)

/-- The underflow check of POP and RET, made before they read the stack (43 R109). -/
def checkUnderflow (s : State) : Except FaultCause Unit :=
  if spUnderflow s.sp then .error (.stackUnderflow s.sp) else .ok ()

/-- The return address of CALL, `pc + 2`, which must fit in a byte (44 R115). -/
def returnAddress (s : State) : Except FaultCause Byte :=
  let ret := pcPlus s.pc 2
  if ret < Config.memSize then .ok (BitVec.ofNat 8 ret) else .error (.invalidAddress ret)

/-- A push's first half: decrement SP (43 R105). -/
def State.decSp (s : State) : State := s.setSp (spDec s.sp)

/-- A pop's second half: increment SP, read afresh (43 R105, R111). -/
def State.incSp (s : State) : State := s.setSp (spInc s.sp)

end Sys2Proof.Machine
end

