-- ==== Sys2Proof/Machine/AluBlock.lean ====
section
/-! DEFINITION. The alu_8bit block (42_alu.md R94, R95) and the frame its five instructions share (R96). -/

namespace Sys2Proof.Machine

open Sys2Proof

/-- The `err` output of alu_8bit (42 R95). -/
inductive AluErr where
  | none
  | divisionByZero
  | unsupportedOperation
  deriving DecidableEq, Repr

/-- The outputs of alu_8bit (42 R95); `e`, `l`, `g` are `flags`. -/
structure AluOut where
  result : Byte
  resultWe : Bool
  flagsWe : Bool
  flags : Flags
  err : AluErr
  deriving DecidableEq, Repr

/-- The two-bit code of `err` (42 R95). -/
def aluErrCode : AluErr → BitVec 2
  | .none => 0b00#2
  | .divisionByZero => 0b01#2
  | .unsupportedOperation => 0b10#2

/-- `e`, `l` and `g` where `flags_we` is 0: R95 gives no value, so they are free values. Log entry 9. -/
def undrivenFlags (aluOp : BitVec 3) (x y : Byte) : Flags :=
  let f := Config.aluUndrivenFlags aluOp x y
  { e := f.getLsbD 0, l := f.getLsbD 1, g := f.getLsbD 2 }

/-- An ALU output that writes a result and no flag: the exact result, reduced modulo 256 (42 R103); its `e`, `l` and `g`
are free values. -/
def aluResult (aluOp : BitVec 3) (x y : Byte) (exact : Int) : AluOut :=
  { result := BitVec.ofInt 8 exact, resultWe := true, flagsWe := false, flags := undrivenFlags aluOp x y, err := .none }

/-- An ALU output that writes nothing and reports an error; its `result` (93 U9) and its `e`, `l` and `g` are free values. -/
def aluError (aluOp : BitVec 3) (x y : Byte) (err : AluErr) : AluOut :=
  { result := Config.aluUnwritten aluOp x y, resultWe := false, flagsWe := false, flags := undrivenFlags aluOp x y, err := err }

/-- The alu_8bit block: a function of the operation code and two bytes (42 R94, R95). -/
def alu8bit (aluOp : BitVec 3) (x y : Byte) : AluOut :=
  if aluOp = 0b000#3 then aluResult aluOp x y ((x.toNat : Int) + y.toNat)
  else if aluOp = 0b001#3 then aluResult aluOp x y ((x.toNat : Int) - y.toNat)
  else if aluOp = 0b010#3 then aluResult aluOp x y ((x.toNat : Int) * y.toNat)
  else if aluOp = 0b011#3 then
    if y.toNat = 0 then aluError aluOp x y .divisionByZero else aluResult aluOp x y ((x.toNat / y.toNat : Nat) : Int)
  else if aluOp = 0b111#3 then
    { result := Config.aluUnwritten aluOp x y, resultWe := false, flagsWe := true, flags := compareFlags x y, err := .none }
  else aluError aluOp x y .unsupportedOperation

/-- The error an ALU output makes the instruction raise, `rb` being the divisor's register (42 R96). -/
def aluCheck (aluOp : BitVec 3) (rb : RegIndex) (o : AluOut) : Except FaultCause Unit :=
  match o.err with
  | .none => .ok ()
  | .divisionByZero => .error (.divisionByZero rb)
  | .unsupportedOperation => .error (.unsupportedOperation aluOp)

/-- The write-back of an ALU output to `R[ra]` and the flags (42 R96): `result_we` is the file's `we`, `flags_we` is
`fl_we`. -/
def State.aluWriteBack (s : State) (ra : RegIndex) (o : AluOut) : State :=
  State.driveFlags { s with regs := s.regs.afterWrite (indexByte ra) o.result o.resultWe } o.flagsWe o.flags

/-- The shared frame of the five ALU instructions (42 R96): check `ra`, then `rb`, run the ALU, check its error, then
write; then the step's sequential advance (40 R78). -/
def aluFrame (aluOp : BitVec 3) (ir a b : Byte) (s : State) : State :=
  checked s ir do
    let ra ← regIndex a
    let rb ← regIndex b
    let o := alu8bit aluOp (s.getReg ra) (s.getReg rb)
    aluCheck aluOp rb o
    return (s.aluWriteBack ra o).advance ir

end Sys2Proof.Machine
end

