-- ==== Sys2Proof/Machine/Alu.lean ====
section
/-! DEFINITION. The meanings of ADD, SUB, MUL, DIV and CMP (42_alu.md, section 2): the shared frame of R96, each with
its own opcode byte and ALU operation code (30_encoding.md R64). -/

namespace Sys2Proof.Machine

open Sys2Proof

/-- ADD (42 R98). -/
def execAdd (ra rb : Byte) (s : State) : Host.Outcome State Fault Refusal :=
  .next (aluFrame 0b000#3 (opcodeByte .add) ra rb s)

/-- SUB (42 R99). -/
def execSub (ra rb : Byte) (s : State) : Host.Outcome State Fault Refusal :=
  .next (aluFrame 0b001#3 (opcodeByte .sub) ra rb s)

/-- MUL (42 R100). -/
def execMul (ra rb : Byte) (s : State) : Host.Outcome State Fault Refusal :=
  .next (aluFrame 0b010#3 (opcodeByte .mul) ra rb s)

/-- DIV (42 R101). -/
def execDiv (ra rb : Byte) (s : State) : Host.Outcome State Fault Refusal :=
  .next (aluFrame 0b011#3 (opcodeByte .div) ra rb s)

/-- CMP (42 R102). -/
def execCmp (ra rb : Byte) (s : State) : Host.Outcome State Fault Refusal :=
  .next (aluFrame 0b111#3 (opcodeByte .cmp) ra rb s)

end Sys2Proof.Machine
end

