-- ==== Sys2Proof/Machine/Control.lean ====
section
/-! DEFINITION. The meanings of CALL, RET, JMP and HLT (44_control.md). None of them advances `pc` by its length
(40_fetch_execute.md R79). -/

namespace Sys2Proof.Machine

open Sys2Proof

/-- CALL (44 R115): check the register and the return address, push `pc + 2`, go to `R[r]`, read after the
decrement. -/
def execCall (r : Byte) (s : State) : Host.Outcome State Fault Refusal :=
  .next <| checked s (opcodeByte .call) do
    let i ← regIndex r
    let ret ← returnAddress s
    let t := s.decSp
    let u := t.store t.sp ret
    return u.setPc (u.getReg i)

/-- RET (44 R116): check for underflow, go to the byte at SP, increment SP. -/
def execRet (s : State) : Host.Outcome State Fault Refusal :=
  .next <| checked s (opcodeByte .ret) do
    checkUnderflow s
    return (s.setPc (s.load s.sp)).incSp

/-- JMP (44 R117): go to `R[r]`. -/
def execJmp (r : Byte) (s : State) : Host.Outcome State Fault Refusal :=
  .next <| checked s (opcodeByte .jmp) do
    let i ← regIndex r
    return s.setPc (s.getReg i)

/-- HLT (44 R118): enter HALTED; `pc` is not written. -/
def execHlt (s : State) : Host.Outcome State Fault Refusal :=
  .next s.halt

end Sys2Proof.Machine
end

