-- ==== Sys2Proof/Machine/LoadOutput.lean ====
section
/-! DEFINITION. The meanings of LDI and PRN (41_load_output.md). -/

namespace Sys2Proof.Machine

open Sys2Proof

/-- LDI (41 R90): the immediate byte goes into the register unchanged. -/
def execLdi (r imm : Byte) (s : State) : Host.Outcome State Fault Refusal :=
  let ir := opcodeByte .ldi
  .next <| checked s ir do
    let i ← regIndex r
    return (s.setReg i imm).advance ir

/-- PRN (41 R91): the register's byte goes to the output port. -/
def execPrn (r : Byte) (s : State) : Host.Outcome State Fault Refusal :=
  let ir := opcodeByte .prn
  .next <| checked s ir do
    let i ← regIndex r
    return (s.emit (s.getReg i)).advance ir

end Sys2Proof.Machine
end

