-- ==== Sys2Proof/Machine/Stack.lean ====
section
/-! DEFINITION. The meanings of PUSH and POP (43_stack.md). The statements run in the written order (00_scope.md R10,
70_reset_and_hazards.md R152), which shows when the operand is R7. -/

namespace Sys2Proof.Machine

open Sys2Proof

/-- PUSH (43 R110): SP is decremented, then `R[r]`, read after that, is written at the new SP. -/
def execPush (r : Byte) (s : State) : Host.Outcome State Fault Refusal :=
  let ir := opcodeByte .push
  .next <| checked s ir do
    let i ← regIndex r
    let t := s.decSp
    return (t.store t.sp (t.getReg i)).advance ir

/-- POP (43 R111): the byte at SP goes into `R[r]`, then SP, read after that, is incremented. -/
def execPop (r : Byte) (s : State) : Host.Outcome State Fault Refusal :=
  let ir := opcodeByte .pop
  .next <| checked s ir do
    let i ← regIndex r
    checkUnderflow s
    return (s.setReg i (s.load s.sp)).incSp.advance ir

end Sys2Proof.Machine
end

