-- ==== Sys2Proof/Machine/Dispatch.lean ====
section
/-! DEFINITION. The dispatch of 40_fetch_execute.md R77: one arm per instruction. -/

namespace Sys2Proof.Machine

open Sys2Proof

def exec (i : Instr) (s : State) : Host.Outcome State Fault Refusal :=
  match i with
  | .hlt => Sys2Proof.Machine.execHlt s
  | .ldi r imm => Sys2Proof.Machine.execLdi r imm s
  | .prn r => Sys2Proof.Machine.execPrn r s
  | .add ra rb => Sys2Proof.Machine.execAdd ra rb s
  | .sub ra rb => Sys2Proof.Machine.execSub ra rb s
  | .mul ra rb => Sys2Proof.Machine.execMul ra rb s
  | .div ra rb => Sys2Proof.Machine.execDiv ra rb s
  | .cmp ra rb => Sys2Proof.Machine.execCmp ra rb s
  | .push r => Sys2Proof.Machine.execPush r s
  | .pop r => Sys2Proof.Machine.execPop r s
  | .call r => Sys2Proof.Machine.execCall r s
  | .ret => Sys2Proof.Machine.execRet s
  | .jmp r => Sys2Proof.Machine.execJmp r s

end Sys2Proof.Machine
end

