-- ==== Sys2Proof/Machine/Fetch.lean ====
section
/-! DEFINITION. Fetching an instruction: opcode byte, decode, operand bytes (40_fetch_execute.md R73 to R76), and
placing one where the step fetches. -/

namespace Sys2Proof.Machine

open Sys2Proof

/-- The opcode byte the step reads at `pc` (40 R73); `pc` is a byte, so this read never faults. -/
def State.fetchedOpcode (s : State) : Byte := s.load s.pc

/-- Read the `k`-th operand byte, at `pc + k` without wrapping, if the instruction has it (40 R76). -/
def fetchOperand (s : State) (nops k : Nat) : Except FaultCause Byte :=
  if k ≤ nops then s.memRead (pcPlus s.pc k) else .ok 0#8

/-- Fetch and decode the instruction at `pc` (40 R73 to R76, R81): an unknown opcode is an error before any operand
is fetched, and an operand address of 256 is an error. Nothing is written. -/
def fetch (s : State) : Except FaultCause Instr :=
  let ir := s.fetchedOpcode
  match decodeOpcode ir with
  | none => .error (.unknownInstruction ir)
  | some m => do
    let nops := (opcodeNops ir).toNat
    let a ← fetchOperand s nops 1
    let b ← fetchOperand s nops 2
    return assemble m a b

/-- A fetch that fails: the fault is raised on the state as it is (40 R75, R76, 60 R130). -/
def fetchFault (s : State) (c : FaultCause) : State := s.raise c s.fetchedOpcode

/-- The bytes of memory from an address up to address 255, `n` of them at most. -/
def State.bytesFrom (s : State) (a : Nat) : Nat → List Byte
  | 0 => []
  | n + 1 => if a < Config.memSize then s.mem.read a :: s.bytesFrom (a + 1) n else []

/-- Store bytes at increasing addresses; those past address 255 are dropped. -/
def Memory.writeBytes (m : Memory) (a : Nat) : List Byte → Memory
  | [] => m
  | b :: rest => (if a < Config.memSize then m.write a b else m).writeBytes (a + 1) rest

/-- The state with a word of the opcode table stored at `pc` and the machine RUNNING, so that the next step runs it.
It stands for the loader (70 R146). Log entry 7. -/
def placeWord (s : State) (nbits w : Nat) : State :=
  { s with run := .running, mem := s.mem.writeBytes s.pc.toNat (tableWordBytes nbits w) }

end Sys2Proof.Machine
end

