-- ==== Sys2Proof/Machine/Step.lean ====
section
/-! DEFINITION. One step of the fetch-execute machine (40_fetch_execute.md R71 to R81). -/

namespace Sys2Proof.Machine

open Sys2Proof

/-- One step. RUNNING: fetch, decode and execute one whole instruction (40 R81). HALTED and FAULTED are terminal:
nothing changes (10 R30); a step there answers the same state (log entry 4). -/
def step (s : State) : Host.Outcome State Fault Refusal :=
  match s.run with
  | .running =>
    match fetch s with
    | .error c => .next (fetchFault s c)
    | .ok i => exec i s
  | .halted => .next s
  | .faulted => .next s

/-- The state with a word of the opcode table placed where the step fetches its next instruction. -/
def State.withFetchWord (s : State) (nbits w : Nat) : State := placeWord s nbits w

end Sys2Proof.Machine
end

