-- ==== Sys2Proof/Machine/Assembly.lean ====
section
/-! DEFINITION. The assembly text of instructions (30_encoding.md R69): the mnemonic, a space, the operands separated by
commas, registers R0 to R7 (or SP for R7), immediates in decimal. No step calls it. Log entry 12. -/

namespace Sys2Proof.Machine

open Sys2Proof

/-- The mnemonics as text (30 R63). -/
def mnemonicText : Op → List Char
  | .hlt => ['H', 'L', 'T']
  | .ldi => ['L', 'D', 'I']
  | .prn => ['P', 'R', 'N']
  | .add => ['A', 'D', 'D']
  | .sub => ['S', 'U', 'B']
  | .mul => ['M', 'U', 'L']
  | .div => ['D', 'I', 'V']
  | .cmp => ['C', 'M', 'P']
  | .push => ['P', 'U', 'S', 'H']
  | .pop => ['P', 'O', 'P']
  | .call => ['C', 'A', 'L', 'L']
  | .ret => ['R', 'E', 'T']
  | .jmp => ['J', 'M', 'P']

/-- The value of decimal digits; none where a character is no decimal digit. -/
def decimalValue (acc : Nat) : List Char → Option Nat
  | [] => some acc
  | c :: rest => if '0' ≤ c ∧ c ≤ '9' then decimalValue (10 * acc + (c.toNat - 48)) rest else none

/-- An immediate in decimal, at least one digit, at most 255 (30 R62, R69). -/
def parseImmediate : List Char → Option Byte
  | [] => none
  | c :: rest =>
    match decimalValue 0 (c :: rest) with
    | some v => if v < 256 then some (BitVec.ofNat 8 v) else none
    | none => none

/-- A register name: R0 to R7, or SP for R7 (30 R69). -/
def parseRegister : List Char → Option Byte
  | ['R', d] => if '0' ≤ d ∧ d ≤ '7' then some (BitVec.ofNat 8 (d.toNat - 48)) else none
  | ['S', 'P'] => some 7#8
  | _ => none

/-- Text cut at every comma. -/
def splitCommas : List Char → List (List Char)
  | [] => [[]]
  | c :: rest =>
    if c = ',' then [] :: splitCommas rest
    else
      match splitCommas rest with
      | [] => [[c]]
      | w :: ws => (c :: w) :: ws

/-- The operand bytes of an instruction, operands in the order of the operand bytes (30 R69). -/
def parseOperands (m : Op) (words : List (List Char)) : Option Instr :=
  match m, words with
  | .hlt, [] => some .hlt
  | .ret, [] => some .ret
  | .ldi, [r, v] => do return .ldi (← parseRegister r) (← parseImmediate v)
  | .prn, [r] => do return .prn (← parseRegister r)
  | .push, [r] => do return .push (← parseRegister r)
  | .pop, [r] => do return .pop (← parseRegister r)
  | .call, [r] => do return .call (← parseRegister r)
  | .jmp, [r] => do return .jmp (← parseRegister r)
  | .add, [a, b] => do return .add (← parseRegister a) (← parseRegister b)
  | .sub, [a, b] => do return .sub (← parseRegister a) (← parseRegister b)
  | .mul, [a, b] => do return .mul (← parseRegister a) (← parseRegister b)
  | .div, [a, b] => do return .div (← parseRegister a) (← parseRegister b)
  | .cmp, [a, b] => do return .cmp (← parseRegister a) (← parseRegister b)
  | _, _ => none

/-- The instruction a line of assembly text writes (30 R69). -/
def parseAssembly (line : List Char) : Option Instr := do
  let name := line.takeWhile fun c => c != ' '
  let m ← Op.all.find? fun m => mnemonicText m == name
  match line.drop name.length with
  | [] => parseOperands m []
  | _ :: operands => parseOperands m (splitCommas operands)

/-- The name R0 to R7 of a register operand byte. -/
def registerText (r : Byte) : List Char := ['R', Char.ofNat (48 + r.toNat)]

/-- The decimal digits of a byte, no leading zeros, `0` for zero. -/
def decimalText (b : Byte) : List Char := Nat.toDigits 10 b.toNat

/-- The operands of an instruction as text, each with its comma or space before it. -/
def operandText : Instr → List Char
  | .hlt | .ret => []
  | .ldi r imm => [' '] ++ registerText r ++ [','] ++ decimalText imm
  | .prn r | .push r | .pop r | .call r | .jmp r => [' '] ++ registerText r
  | .add a b | .sub a b | .mul a b | .div a b | .cmp a b => [' '] ++ registerText a ++ [','] ++ registerText b

/-- A well-formed instruction as assembly text (30 R69). -/
def assemblyText (i : Instr) : List Char := mnemonicText i.op ++ operandText i

end Sys2Proof.Machine
end

