-- ==== Sys2Proof/Machine/HostView.lean ====
section
/-! DEFINITION. What the host sees of the machine: the state codes of the port (40_fetch_execute.md R84), what a run
leaves to be observed (40 R87), the text of the output (41_load_output.md R92) and the exit code
(60_exceptions.md R136). No step calls it. -/

namespace Sys2Proof.Machine

open Sys2Proof

/-- `state[1:0]` of the port: RUNNING 0b00, HALTED 0b01, FAULTED 0b10; 0b11 is never driven (40 R84). -/
def RunState.code : RunState → BitVec 2
  | .running => 0b00#2
  | .halted => 0b01#2
  | .faulted => 0b10#2

/-- The status outputs of fetch_execute_fsm (40 R84): `state`, `fault_kind`, `fault_pc`, `fault_ir`, `fault_info`. The fault
outputs are valid when `state` is FAULTED. -/
structure FsmStatus where
  state : BitVec 2
  faultKind : BitVec 3
  faultPc : Byte
  faultIr : Byte
  faultInfo : BitVec 9
  deriving DecidableEq, Repr

/-- The status outputs in a state (40 R84). -/
def State.fsmStatus (s : State) : FsmStatus :=
  { state := s.run.code, faultKind := s.fault.kind, faultPc := s.fault.pc, faultIr := s.fault.ir, faultInfo := s.fault.info }

/-- What a run leaves to be observed (40 R87). The fault record is there only in FAULTED. -/
structure Observation where
  run : RunState
  regs : RegFile
  pc : Byte
  flags : Flags
  mem : Memory
  out : List Byte
  fault : Option FaultRecord
  deriving DecidableEq, Repr

/-- The observation of a state (40 R87). -/
def State.observe (s : State) : Observation :=
  { run := s.run, regs := s.regs, pc := s.pc, flags := s.flags, mem := s.mem, out := s.out,
    fault := if s.run = .faulted then some s.fault else none }

/-- The lines the host prints for the bytes of the output stream, one per byte: its unsigned decimal digits
(41 R92). The characters of the line break are the host's (93 U16). -/
def outputLines (out : List Byte) : List (List Char) := out.map decimalText

/-- The exit code of a kind in the fault record: 1 for UnknownInstruction; the OPEN parameter, non-zero, for the
others (60 R136, 92 D20). Log entry 11. -/
def faultExitCode (kind : BitVec 3) : Nat :=
  if kind = FaultKind.unknownInstruction.code then 1 else Config.exitCodePred kind + 1

/-- The process exit code of the end of a run; a run that has not ended has none (60 R136). -/
def State.exitCode (s : State) : Option Nat :=
  match s.run with
  | .running => none
  | .halted => some 0
  | .faulted => some (faultExitCode s.fault.kind)

/-- The exit code of a loader failure, the program file absent (60 R136, 70 R148). -/
def fileNotFoundExitCode : Nat := 2

end Sys2Proof.Machine
end

