-- ==== Sys2Proof/Machine/Loader.lean ====
section
/-! DEFINITION. The loader's interface to the machine (70_reset_and_hazards.md, section 2): program text to bytes,
and bytes to the state from which a run starts. The loader is the host, not the CORE; no step calls it. -/

namespace Sys2Proof.Machine

open Sys2Proof

/-- Why the host refuses a program (70 R147): no run starts. -/
inductive LoaderError where
  /-- A literal with a character other than `0` and `1`. -/
  | badCharacter
  /-- A literal of more than eight digits. -/
  | tooManyDigits
  /-- A program of more than 256 bytes. -/
  | tooManyBytes
  deriving DecidableEq, Repr

/-- Spaces and tabs, which are ignored around a literal (70 R147). -/
def isBlankChar (c : Char) : Bool := c == ' ' || c == '\t'

/-- A line's content before its comment, without the spaces and tabs around it (70 R146, R147). -/
def lineContent (line : List Char) : List Char :=
  ((((line.takeWhile fun c => c != '#').dropWhile isBlankChar).reverse).dropWhile isBlankChar).reverse

/-- The value of binary digits, most significant first; none where a character is no binary digit. -/
def binaryValue (acc : Nat) : List Char → Option Nat
  | [] => some acc
  | '0' :: rest => binaryValue (2 * acc) rest
  | '1' :: rest => binaryValue (2 * acc + 1) rest
  | _ :: _ => none

/-- The byte a program line stands for, none for a blank or comment-only line (70 R146, R147). -/
def parseLine (line : List Char) : Except LoaderError (Option Byte) :=
  match lineContent line with
  | [] => .ok none
  | c :: rest =>
    match binaryValue 0 (c :: rest) with
    | none => .error .badCharacter
    | some v => if (c :: rest).length ≤ 8 then .ok (some (BitVec.ofNat 8 v)) else .error .tooManyDigits

/-- The bytes of a program text, in order (70 R146). -/
def parseLines : List (List Char) → Except LoaderError (List Byte)
  | [] => .ok []
  | line :: rest => do
    let b ← parseLine line
    let bs ← parseLines rest
    return b.toList ++ bs

/-- Write bytes with MemWrite at increasing addresses; the first one past address 255 refuses the program
(70 R146, R147). -/
def loadFrom (a : Nat) (s : State) : List Byte → Except LoaderError State
  | [] => .ok s
  | b :: rest =>
    match s.memWrite a b with
    | .ok t => loadFrom (a + 1) t rest
    | .error _ => .error .tooManyBytes

/-- The state from which a run of the program starts: reset, and the bytes in memory from address 0 (70 R143, R144,
R146). -/
def State.loaded (bytes : List Byte) : Except LoaderError State := loadFrom 0 State.reset bytes

/-- A byte as a line of program text: eight binary digits, most significant first (30 R70). -/
def binaryLine (b : Byte) : List Char :=
  [7, 6, 5, 4, 3, 2, 1, 0].map fun k => if b.getLsbD k then '1' else '0'

/-- An instruction as program text, its opcode line and then one line per operand byte (30 R70). -/
def programLines (i : Instr) : List (List Char) := (encode i).map binaryLine

end Sys2Proof.Machine
end

