-- ==== Sys2Proof/Safety.lean ====
section
/-! DEFINITION. What counts as a safe run, the machine's invariant, and the table of checks of 60_exceptions.md R132, in
the terms the statements use. -/

namespace Sys2Proof.Safety

open Sys2Proof Sys2Proof.Machine

/-- The run has ended (10 R30): HALTED or FAULTED. -/
def Terminal (s : State) : Prop := s.run ≠ .running

/-- `n` steps from `s` end in a state that is not FAULTED. -/
def SafeFor (n : Nat) (s : State) : Prop :=
  ∃ t, Host.Core.run Sys2Proof.core n s = .next t ∧ t.run ≠ .faulted

/-- At most one flag is set (10 R28). -/
def FlagsExclusive (f : Flags) : Prop :=
  (f.e && f.l) = false ∧ (f.e && f.g) = false ∧ (f.l && f.g) = false

/-- A fault record as 60 R123's table allows it: one of the five kinds that can occur, its `info` in that kind's
range; UnsupportedOperation never (42 R97). -/
def RecordInTable (r : FaultRecord) : Prop :=
  (r.kind = 1#3 ∧ r.info.toNat = 256) ∨
  (r.kind = 2#3 ∧ 8 ≤ r.info.toNat ∧ r.info.toNat ≤ 255) ∨
  (r.kind = 3#3 ∧ r.info.toNat ≤ 7) ∨
  (r.kind = 4#3 ∧ 0xF4 ≤ r.info.toNat ∧ r.info.toNat ≤ 0xFF) ∨
  (r.kind = 5#3 ∧ r.info.toNat = r.ir.toNat)

/-- The invariant of the machine: memory is canonical; at most one flag is set; in HALTED `pc` is the address of a HLT
byte; in FAULTED the record names `pc` and is one of R123's table. -/
structure Inv (s : State) : Prop where
  memCanonical : s.mem.wf
  flagsExclusive : FlagsExclusive s.flags
  haltedAtHlt : s.run = .halted → s.mem.read s.pc.toNat = 0x01#8
  faultedHere : s.run = .faulted → s.fault.pc = s.pc
  faultedInTable : s.run = .faulted → RecordInTable s.fault

/-- How many of an instruction's operands are registers (30 R59): LDI's second operand is not one. -/
def registerOperands : Op → Nat
  | .hlt | .ret => 0
  | .ldi | .prn | .push | .pop | .call | .jmp => 1
  | .add | .sub | .mul | .div | .cmp => 2

/-- The instructions that advance `pc` by their length (40 R78). -/
def advances : Op → Bool
  | .ldi | .prn | .add | .sub | .mul | .div | .cmp | .push | .pop => true
  | .hlt | .call | .ret | .jmp => false

/-- The first of the checks 1 to 7 of 60 R132's table, in its order, that the instruction at `pc` fails; none where it fails
none of them. These are the checks that come before the instruction's first write. -/
def checkBeforeWrites (s : State) : Option FaultCause :=
  let pc := s.pc.toNat
  let ir := s.mem.read pc
  let a := s.mem.read (pc + 1)
  let b := s.mem.read (pc + 2)
  match decodeOpcode ir with
  | none => some (.unknownInstruction ir)
  | some m =>
    if 1 ≤ operandCount m ∧ pc + 1 = 256 then some (.invalidAddress 256)
    else if operandCount m = 2 ∧ pc + 2 = 256 then some (.invalidAddress 256)
    else if 1 ≤ registerOperands m ∧ 7 < a.toNat then some (.invalidRegister a)
    else if registerOperands m = 2 ∧ 7 < b.toNat then some (.invalidRegister b)
    else if m = .call ∧ pc + 2 = 256 then some (.invalidAddress 256)
    else if (m = .pop ∨ m = .ret) ∧ 0xF4 ≤ s.sp.toNat then some (.stackUnderflow s.sp)
    else if m = .div ∧ s.getReg (Fin.ofNat 8 b.toNat) = 0#8 then some (.divisionByZero (Fin.ofNat 8 b.toNat))
    else none

/-- Check 8 of 60 R132's table: the instruction at `pc` advances, and its last byte is at 255. -/
def advancesPast255 (s : State) : Bool :=
  match decodeOpcode (s.mem.read s.pc.toNat) with
  | none => false
  | some m => advances m && s.pc.toNat + operandCount m + 1 == 256

/-- The first check of 60 R132's table, in its order, that the instruction at `pc` fails; none where it fails none. -/
def firstFailedCheck (s : State) : Option FaultCause :=
  match checkBeforeWrites s with
  | some c => some c
  | none => if advancesPast255 s then some (.invalidAddress 256) else none

end Sys2Proof.Safety
end

