-- ==== Sys2Proof/Certificates/Slice0/Obligations.lean ====
section
/-! DEFINITION. The statements for the provers, each from the numbered rules of spec/ its docstring names. -/

namespace Sys2Proof.Claims

open Sys2Proof Sys2Proof.Machine Sys2Proof.Safety

/-- Execute instructions one after another, as long as each answers a next state. -/
def execAll : List Instr → State → Host.Outcome State Fault Refusal
  | [], s => .next s
  | i :: rest, s =>
    match exec i s with
    | .next t => execAll rest t
    | .fault r => .fault r
    | .refused r => .refused r

/-- A RUNNING machine at an instruction whose opcode byte is `ir`, at an address from `lo` up, raises
InvalidAddress(256) at an operand fetch and writes nothing else. -/
def FetchFaultsFrom (ir : Byte) (lo : Nat) : Prop :=
  ∀ s : State, s.run = .running → s.mem.read s.pc.toNat = ir → lo ≤ s.pc.toNat →
    step s = .next (s.raise (.invalidAddress 256) ir)

/-- Every register operand above 7 is raised, first operand first, before anything is written. -/
def RegisterChecks (i : Byte → Byte → Instr) (ir : Byte) : Prop :=
  ∀ (a b : Byte) (s : State),
    (8 ≤ a.toNat → exec (i a b) s = .next (s.raise (.invalidRegister a) ir)) ∧
    (a.toNat < 8 → 8 ≤ b.toNat → exec (i a b) s = .next (s.raise (.invalidRegister b) ir))

/-- Exactly one flag is set. -/
def ExactlyOneFlag (f : Flags) : Prop :=
  f = ⟨true, false, false⟩ ∨ f = ⟨false, true, false⟩ ∨ f = ⟨false, false, true⟩

/-- A row of the decoder's table for a byte that is an instruction (30 R64); `alu` is its `alu_op` where it has one. -/
def DecoderRow (ir : Byte) (op nops len fmt : Nat) (alu : Option (BitVec 3)) (setsPc : Bool) : Prop :=
  let d := instructionDecoder ir
  d.valid = true ∧ d.op.toNat = op ∧ d.nops.toNat = nops ∧ d.len.toNat = len ∧ d.fmt.toNat = fmt ∧
    d.isAlu = alu.isSome ∧ (∀ c, alu = some c → d.aluOp = c) ∧ d.setsPc = setsPc

/-- Every fetch of the address gives the byte: an opcode fetch, where `pc` is the address, and an operand fetch, where the
operand lies there. -/
def FetchedAs (u : State) (addr v : Byte) : Prop :=
  (u.pc = addr → u.fetchedOpcode = v) ∧
  ∀ nops k : Nat, 1 ≤ k → k ≤ nops → u.pc.toNat + k = addr.toNat → fetchOperand u nops k = .ok v

/-- The run state and the fault record are as before, or a fault was raised. -/
def KeptOrFaulted (s t : State) : Prop := (t.run = s.run ∧ t.fault = s.fault) ∨ t.run = .faulted

end Sys2Proof.Claims

open Sys2Proof Sys2Proof.Machine Sys2Proof.Safety Sys2Proof.Claims

/-! ## Encoding -/

/-- Instructions' bytes written out from R63 decode to the instructions they stand for. The opcode bytes are the defaults
the spec supplies (92 D1; log entry 1). -/
def Obligations.SpecBytesDecode : Prop :=
  decode [0x01#8] = .ok (.hlt, []) ∧
  decode [0x82#8, 0x00#8, 0x08#8] = .ok (.ldi 0#8 8#8, []) ∧
  decode [0x47#8, 0x00#8] = .ok (.prn 0#8, []) ∧
  decode [0xA0#8, 0x00#8, 0x01#8] = .ok (.add 0#8 1#8, []) ∧
  decode [0xA1#8, 0x03#8, 0x02#8] = .ok (.sub 3#8 2#8, []) ∧
  decode [0xA2#8, 0x00#8, 0x01#8] = .ok (.mul 0#8 1#8, []) ∧
  decode [0xA3#8, 0x02#8, 0x03#8] = .ok (.div 2#8 3#8, []) ∧
  decode [0xA7#8, 0x02#8, 0x03#8] = .ok (.cmp 2#8 3#8, []) ∧
  decode [0x45#8, 0x07#8] = .ok (.push 7#8, []) ∧
  decode [0x46#8, 0x01#8] = .ok (.pop 1#8, []) ∧
  decode [0x50#8, 0x01#8] = .ok (.call 1#8, []) ∧
  decode [0x11#8, 0x99#8] = .ok (.ret, [0x99#8]) ∧
  decode [0x54#8, 0x02#8] = .ok (.jmp 2#8, []) ∧
  decode [0xFF#8, 0x00#8] = .error (.unknownInstruction 0xFF#8)

/-- Decoding an encoded instruction, whatever bytes follow, gives it back with those bytes left; for every instruction
and every operand byte (R59, R61, R62, R63). -/
def Obligations.DecodeInvertsEncode : Prop :=
  ∀ (i : Instr) (rest : List Byte), decode (encode i ++ rest) = .ok (i, rest)

/-- The decoder accepts nothing but encodings: what it decoded is the encoding of its answer and the bytes it left. -/
def Obligations.DecodedBytesAreEncoding : Prop :=
  ∀ (bytes rest : List Byte) (i : Instr), decode bytes = .ok (i, rest) → bytes = encode i ++ rest

/-- Each byte gives exactly one of the thirteen instructions or valid = 0, and no two instructions share a byte (R65,
which the spec derives from R63's bytes; log entry 1). -/
def Obligations.DecoderTotalAndUnambiguous : Prop :=
  (∀ ir : Byte,
    ((instructionDecoder ir).valid = true ∧ ∃ m, opcodeByte m = ir ∧ (instructionDecoder ir).op = opCode m ∧
      ∀ n, (instructionDecoder ir).op = opCode n → n = m) ∨
    ((instructionDecoder ir).valid = false ∧ ∀ m, opcodeByte m ≠ ir)) ∧
  (∀ m n : Op, opcodeByte m = opcodeByte n → m = n)

/-- The decoder's outputs for each of the thirteen bytes (R63, R64, the table of 95 section 2.1), and for every other byte
`valid` = 0 and `op` = 15; `nops` and `len` are bits [7:6] and one more for every byte (R57). The bytes are the spec's
defaults (92 D1; log entry 1), the output codes the spec's decision D14. -/
def Obligations.DecoderOutputsMatchTable : Prop :=
  DecoderRow 0x01#8 0 0 1 0 none false ∧
  DecoderRow 0x82#8 1 2 3 2 none false ∧
  DecoderRow 0x47#8 2 1 2 1 none false ∧
  DecoderRow 0xA0#8 3 2 3 3 (some 0b000#3) false ∧
  DecoderRow 0xA1#8 4 2 3 3 (some 0b001#3) false ∧
  DecoderRow 0xA2#8 5 2 3 3 (some 0b010#3) false ∧
  DecoderRow 0xA3#8 6 2 3 3 (some 0b011#3) false ∧
  DecoderRow 0xA7#8 7 2 3 3 (some 0b111#3) false ∧
  DecoderRow 0x45#8 8 1 2 1 none false ∧
  DecoderRow 0x46#8 9 1 2 1 none false ∧
  DecoderRow 0x50#8 10 1 2 1 none true ∧
  DecoderRow 0x11#8 11 0 1 0 none true ∧
  DecoderRow 0x54#8 12 1 2 1 none true ∧
  ∀ ir : Byte, (instructionDecoder ir).nops.toNat = ir.toNat / 64 ∧ (instructionDecoder ir).len.toNat = ir.toNat / 64 + 1 ∧
    (ir ∉ [0x01#8, 0x82#8, 0x47#8, 0xA0#8, 0xA1#8, 0xA2#8, 0xA3#8, 0xA7#8, 0x45#8, 0x46#8, 0x50#8, 0x11#8, 0x54#8] →
      (instructionDecoder ir).valid = false ∧ (instructionDecoder ir).op = 15#4)

/-- For ANY map of the parameter OPCODE_BYTE that meets the constraints of 92 D1 (distinct bytes, bits [7:6] the operand
count), with or without DIV, decoding inverts encoding for every instruction that is present. -/
def Obligations.AnyOpcodeMapRoundTrips : Prop :=
  ∀ (byte : Op → Byte) (divPresent : Bool),
    (∀ m n, byte m = byte n → m = n) → (∀ m, (byte m).toNat / 64 = operandCount m) →
    ∀ (i : Instr) (rest : List Byte),
      ((divPresent = true ∨ i.op ≠ .div) → decodeWith byte divPresent (encodeWith byte i ++ rest) = .ok (i, rest)) ∧
      (divPresent = false → i.op = .div →
        decodeWith byte divPresent (encodeWith byte i ++ rest) = .error (.unknownInstruction (byte .div)))

/-! ## State -/

/-- The whole operand byte is the register index; 0 to 7 name R0 to R7, 8 to 255 are InvalidRegister (R61, the spec's
decision D22). -/
def Obligations.RegisterOperandIsWholeByte : Prop :=
  ∀ r : Byte,
    (r.toNat ≤ 7 → ∃ i : RegIndex, i.val = r.toNat ∧ regIndex r = .ok i) ∧
    (8 ≤ r.toNat → regIndex r = .error (.invalidRegister r))

/-- A write stores `v mod 256` in the register, which then reads so; it changes that register and nothing else; an
instruction that would write a register above 7 writes nothing and raises InvalidRegister (R17, R18). That the whole byte is
the index is the spec's decision D22, and that this check comes before the second operand's and before the underflow check
decision D12 (log entry 13). -/
def Obligations.RegisterWriteStoresModulo256 : Prop :=
  (∀ (s : State) (i : RegIndex) (v : Nat),
    let t := s.setReg i (BitVec.ofNat 8 v)
    (t.getReg i).toNat = v % 256 ∧ (∀ j, j ≠ i → t.getReg j = s.getReg j) ∧ t = { s with regs := t.regs }) ∧
  (∀ (r b : Byte) (s : State), 8 ≤ r.toNat →
    ∀ i ∈ [Instr.ldi r b, .add r b, .sub r b, .mul r b, .div r b, .pop r],
      exec i s = .next (s.raise (.invalidRegister r) i.opcode))

/-- A write at an address up to 255 stores the byte, which a read then gives, and changes nothing else; a read changes
nothing; an address of 256 or more is neither read nor written (R38, R41, R42). -/
def Obligations.MemoryAccessIsOneCell : Prop :=
  ∀ (s : State) (a : Nat) (v : Byte),
    (a ≤ 255 → s.memRead a = .ok (s.mem.read a) ∧
      ∃ t, s.memWrite a v = .ok t ∧ t.memRead a = .ok v ∧ (∀ b, b ≠ a → t.mem.read b = s.mem.read b) ∧
        t = { s with mem := t.mem }) ∧
    (256 ≤ a → s.memRead a = .error (.invalidAddress a) ∧ s.memWrite a v = .error (.invalidAddress a))

/-- The CORE reaches memory through its port (R44, the spec's decision D26): an access at an address up to 255 drives the
port with that address, a read with `mem_re` alone, a write with `mem_we` alone and the byte on `mem_wdata`, and it takes or
stores what the port gives or carries; above 255 the range check fails (R39) and no port is driven. -/
def Obligations.AccessesGoThroughPort : Prop :=
  ∀ (s : State) (a : Nat) (v : Byte),
    (a ≤ 255 → ∃ p, portAddress a = .ok p ∧ p.toNat = a ∧
      (portOfRead p).addr = p ∧ (portOfRead p).re = true ∧ (portOfRead p).we = false ∧
      s.memRead a = .ok (s.mem.rdata (portOfRead p)) ∧ s.mem.afterAccess (portOfRead p) = s.mem ∧
      portOfWrite p v = { addr := p, re := false, we := true, wdata := v } ∧
      s.memWrite a v = .ok { s with mem := s.mem.afterAccess (portOfWrite p v) }) ∧
    (256 ≤ a → portAddress a = .error (.invalidAddress a) ∧ s.memRead a = .error (.invalidAddress a) ∧
      s.memWrite a v = .error (.invalidAddress a))

/-- The step reaches registers, `pc`, flags and output through the ports of their blocks (R84, R85, R24, R28, R33; the signals
are the spec's decision D14, log entry 19). A read port gives the register of its index; the write port writes it where `we` is 1
and the index is at most 7 (R17); `sp` is R7 (R20); `idx_err` is 1 exactly where the instruction raises InvalidRegister, of the
first of its operand bytes above 7 (the spec's decision D12). -/
def Obligations.BlocksAreReachedThroughPorts : Prop :=
  (∀ (f : RegFile) (p : RegFileIn) (used : List Byte),
    (∀ h : p.raIdx.toNat < 8, (f.outputs p used).raData = f.get ⟨p.raIdx.toNat, h⟩) ∧
    (∀ h : p.rbIdx.toNat < 8, (f.outputs p used).rbData = f.get ⟨p.rbIdx.toNat, h⟩) ∧
    (f.outputs p used).sp = f.get 7 ∧ ((f.outputs p used).idxErr = true ↔ ∃ r ∈ used, 7 < r.toNat) ∧
    (∀ h : p.wIdx.toNat < 8, p.we = true → f.next p = f.set ⟨p.wIdx.toNat, h⟩ p.wData) ∧
    (p.we = false ∨ 8 ≤ p.wIdx.toNat → f.next p = f)) ∧
  (∀ (i : Instr) (s : State),
    (∀ r, (registerOperandBytes i).find? (fun r => decide (7 < r.toNat)) = some r →
      exec i s = .next (s.raise (.invalidRegister r) i.opcode)) ∧
    (s.run = .running → idxErr (registerOperandBytes i) = false →
      ∀ t, exec i s = .next t → t.run = .faulted → t.fault.kind ≠ 2#3)) ∧
  (∀ (s : State) (i : RegIndex) (p : RegFileIn) (used : List Byte),
    (p.raIdx.toNat = i.val → (s.regs.outputs p used).raData = s.getReg i) ∧
    (p.rbIdx.toNat = i.val → (s.regs.outputs p used).rbData = s.getReg i) ∧
    (p.wIdx.toNat = i.val → p.we = true → s.setReg i p.wData = { s with regs := s.regs.next p })) ∧
  (∀ (s : State) (v : Byte) (len : BitVec 3) (f : Flags),
    (pcPlusLen s.pc len).toNat = s.pc.toNat + len.toNat ∧
    s.setPc v = { s with pc := pcAfter s.pc { load := true, next := v, reset := false } } ∧ (s.setPc v).pc = v ∧
    pcAfter s.pc { load := false, next := v, reset := false } = s.pc ∧
    s.driveFlags true f = { s with flags := f } ∧ s.driveFlags false f = s ∧
    s.emit v = { s with out := streamAfter s.out { data := v, valid := true } } ∧ (s.emit v).out = s.out ++ [v] ∧
    streamAfter s.out { data := v, valid := false } = s.out)

/-- Memory is its 256 bytes and nothing more (R37): two canonical memories that read alike at 0 to 255 are equal. -/
def Obligations.MemoryIsItsBytes : Prop :=
  ∀ m n : Memory, m.wf → n.wf → (∀ a, a ≤ 255 → m.read a = n.read a) → m = n

/-- The values the spec gives for reset, and memory as the loaded program leaves it (R35); the fault record is not among
them. -/
def Obligations.ResetValues : Prop :=
  State.reset.regs = ⟨0#8, 0#8, 0#8, 0#8, 0#8, 0#8, 0#8, 0xF4#8⟩ ∧ State.reset.pc = 0#8 ∧
  State.reset.flags = ⟨false, false, false⟩ ∧ State.reset.run = .running ∧ State.reset.out = [] ∧
  (∀ a, State.reset.mem.read a = 0#8) ∧
  (∀ bytes : List Byte, bytes.length ≤ 256 → ∃ s, State.loaded bytes = .ok s ∧
    s = { State.reset with mem := s.mem } ∧ ∀ a, s.mem.read a = bytes.getD a 0#8)

/-- `raise` writes kind, pc, ir and info and enters FAULTED, nothing else, and the machine then makes no further step
(R130). The codes and the info of each kind are R123's, the spec's decision D5; that the step then answers the same
state is log entry 4. -/
def Obligations.RaiseWritesTheRecord : Prop :=
  (∀ (s : State) (c : FaultCause) (ir : Byte),
    s.raise c ir = { s with run := .faulted, fault := { kind := c.kind.code, pc := s.pc, ir := ir, info := c.info } } ∧
    step (s.raise c ir) = .next (s.raise c ir)) ∧
  (∀ x : Byte,
    ((FaultCause.invalidAddress 256).kind.code.toNat = 1 ∧ (FaultCause.invalidAddress 256).info.toNat = 256) ∧
    ((FaultCause.invalidRegister x).kind.code.toNat = 2 ∧ (FaultCause.invalidRegister x).info.toNat = x.toNat) ∧
    ((FaultCause.stackUnderflow x).kind.code.toNat = 4 ∧ (FaultCause.stackUnderflow x).info.toNat = x.toNat) ∧
    ((FaultCause.unknownInstruction x).kind.code.toNat = 5 ∧ (FaultCause.unknownInstruction x).info.toNat = x.toNat)) ∧
  (∀ rb : RegIndex, (FaultCause.divisionByZero rb).kind.code.toNat = 3 ∧ (FaultCause.divisionByZero rb).info.toNat = rb.val) ∧
  (∀ op : BitVec 3,
    (FaultCause.unsupportedOperation op).kind.code.toNat = 6 ∧ (FaultCause.unsupportedOperation op).info.toNat = op.toNat)

/-- The exact results of the ALU on unsigned bytes, modulo 256, with no flag from ADD, SUB, MUL and DIV (R103), at the
outputs of alu_8bit (R95). -/
def Obligations.AluFunction : Prop :=
  ∀ x y : Byte,
    (let o := alu8bit 0b000#3 x y;
      o.result.toNat = (x.toNat + y.toNat) % 256 ∧ o.resultWe = true ∧ o.flagsWe = false ∧ aluErrCode o.err = 0b00#2) ∧
    (let o := alu8bit 0b001#3 x y;
      (o.result.toNat : Int) = ((x.toNat : Int) - y.toNat) % 256 ∧ o.resultWe = true ∧ o.flagsWe = false ∧
        aluErrCode o.err = 0b00#2) ∧
    (let o := alu8bit 0b010#3 x y;
      o.result.toNat = (x.toNat * y.toNat) % 256 ∧ o.resultWe = true ∧ o.flagsWe = false ∧ aluErrCode o.err = 0b00#2) ∧
    (let o := alu8bit 0b011#3 x y;
      (y.toNat ≠ 0 → o.result.toNat = x.toNat / y.toNat ∧ o.resultWe = true ∧ o.flagsWe = false ∧
        aluErrCode o.err = 0b00#2) ∧
      (y.toNat = 0 → o.resultWe = false ∧ o.flagsWe = false ∧ aluErrCode o.err = 0b01#2)) ∧
    (let o := alu8bit 0b111#3 x y;
      o.resultWe = false ∧ o.flagsWe = true ∧ o.flags.e = decide (x.toNat = y.toNat) ∧
        o.flags.l = decide (x.toNat < y.toNat) ∧ o.flags.g = decide (x.toNat > y.toNat) ∧ aluErrCode o.err = 0b00#2) ∧
    (∀ op : BitVec 3, op = 0b100#3 ∨ op = 0b101#3 ∨ op = 0b110#3 →
      (alu8bit op x y).resultWe = false ∧ (alu8bit op x y).flagsWe = false ∧ aluErrCode (alu8bit op x y).err = 0b10#2)

/-! ## The step -/

/-- A RUNNING machine whose bytes at `pc` decode to an instruction executes exactly that instruction (R77, R81);
nothing is added around it. -/
def Obligations.StepRunsDecodedInstruction : Prop :=
  ∀ (s : State) (i : Instr) (rest : List Byte),
    s.run = .running → decode (s.bytesFrom s.pc.toNat 3) = .ok (i, rest) → step s = exec i s

/-- An opcode byte that is no instruction raises UnknownInstruction at once; no operand is fetched (so also at 255) and no
state but the run state and the record is written (R75, R128; the order is the spec's decision D12, FAULTED its D4). -/
def Obligations.UnknownOpcodeRaises : Prop :=
  ∀ s : State, s.run = .running → (instructionDecoder (s.mem.read s.pc.toNat)).valid = false →
    step s = .next (s.raise (.unknownInstruction (s.mem.read s.pc.toNat)) (s.mem.read s.pc.toNat))

/-- Operand bytes are read at `pc + 1` and `pc + 2` as `nops` says, without wrapping; an address of 256 raises
InvalidAddress(256) and no state but the run state and the record is written (R76). -/
def Obligations.OperandFetch : Prop :=
  ∀ (s : State) (m : Op), s.run = .running → s.mem.read s.pc.toNat = opcodeByte m →
    let nops := (instructionDecoder (opcodeByte m)).nops.toNat
    (s.pc.toNat + nops ≤ 255 →
      ∃ a b, (1 ≤ nops → a = s.mem.read (s.pc.toNat + 1)) ∧ (nops = 2 → b = s.mem.read (s.pc.toNat + 2)) ∧
        step s = exec (assemble m a b) s) ∧
    (256 ≤ s.pc.toNat + nops → step s = .next (s.raise (.invalidAddress 256) (opcodeByte m)))

/-- In HALTED and FAULTED nothing changes, for any number of steps (R30). That a step there answers the same state is the
model's choice (log entry 4). -/
def Obligations.TerminalStatesAreInert : Prop :=
  ∀ (n : Nat) (s : State), Terminal s → Host.Core.run Sys2Proof.core n s = .next s

/-- No number of steps from any state ends in a stop of the model: every error is a state of the machine (R130; log
entries 3 and 4). -/
def Obligations.RunsNeverStopOutsideTheState : Prop :=
  ∀ (n : Nat) (s : State), ∃ t, Host.Core.run Sys2Proof.core n s = .next t

/-! ## The instructions -/

/-- LDI (R90): the register is loaded and `pc` moves by 3; the advance past 255 raises after the effect (the spec's
decision D6). The opcode byte is the default the spec supplies (R63, 92 D1; log entry 1). -/
def Obligations.LdiLoadsImmediate : Prop :=
  (∀ r imm : Byte, encode (.ldi r imm) = [0x82#8, r, imm]) ∧
  (∀ (r imm : Byte) (s : State) (h : r.toNat < 8),
    (s.pc.toNat ≤ 252 → exec (.ldi r imm) s = .next { s with regs := s.regs.set ⟨r.toNat, h⟩ imm, pc := s.pc + 3#8 }) ∧
    (s.pc.toNat = 253 → exec (.ldi r imm) s =
      .next (State.raise { s with regs := s.regs.set ⟨r.toNat, h⟩ imm } (.invalidAddress 256) 0x82#8))) ∧
  (∀ (r imm : Byte) (s : State), 8 ≤ r.toNat → exec (.ldi r imm) s = .next (s.raise (.invalidRegister r) 0x82#8)) ∧
  FetchFaultsFrom 0x82#8 254

/-- PRN (R91): the register's byte is emitted and `pc` moves by 2; the advance past 255 raises after the effect (the
spec's decision D6). The opcode byte is the default the spec supplies (R63, 92 D1; log entry 1). -/
def Obligations.PrnEmitsRegister : Prop :=
  (∀ r : Byte, encode (.prn r) = [0x47#8, r]) ∧
  (∀ (r : Byte) (s : State) (h : r.toNat < 8),
    (s.pc.toNat ≤ 253 → exec (.prn r) s = .next { s with out := s.out ++ [s.regs.get ⟨r.toNat, h⟩], pc := s.pc + 2#8 }) ∧
    (s.pc.toNat = 254 → exec (.prn r) s =
      .next (State.raise { s with out := s.out ++ [s.regs.get ⟨r.toNat, h⟩] } (.invalidAddress 256) 0x47#8))) ∧
  (∀ (r : Byte) (s : State), 8 ≤ r.toNat → exec (.prn r) s = .next (s.raise (.invalidRegister r) 0x47#8)) ∧
  FetchFaultsFrom 0x47#8 255

/-- ADD (R98), with the register checks in the order of the spec's decision D12; the advance past 255 raises after the
effect (the spec's decision D6). The opcode byte is the default the spec supplies (R63, 92 D1; log entry 1). -/
def Obligations.AddWrapsModulo256 : Prop :=
  (∀ a b : Byte, encode (.add a b) = [0xA0#8, a, b]) ∧
  (∀ (a b : Byte) (s : State) (ha : a.toNat < 8) (hb : b.toNat < 8),
    let x := (s.regs.get ⟨a.toNat, ha⟩).toNat
    let y := (s.regs.get ⟨b.toNat, hb⟩).toNat
    let regs := s.regs.set ⟨a.toNat, ha⟩ (BitVec.ofNat 8 ((x + y) % 256))
    (s.pc.toNat ≤ 252 → exec (.add a b) s = .next { s with regs := regs, pc := s.pc + 3#8 }) ∧
    (s.pc.toNat = 253 → exec (.add a b) s = .next (State.raise { s with regs := regs } (.invalidAddress 256) 0xA0#8))) ∧
  RegisterChecks .add 0xA0#8 ∧ FetchFaultsFrom 0xA0#8 254

/-- SUB (R99), with the register checks in the order of the spec's decision D12; the advance past 255 raises after the
effect (the spec's decision D6). The opcode byte is the default the spec supplies (R63, 92 D1; log entry 1). -/
def Obligations.SubWrapsModulo256 : Prop :=
  (∀ a b : Byte, encode (.sub a b) = [0xA1#8, a, b]) ∧
  (∀ (a b : Byte) (s : State) (ha : a.toNat < 8) (hb : b.toNat < 8),
    let x := (s.regs.get ⟨a.toNat, ha⟩).toNat
    let y := (s.regs.get ⟨b.toNat, hb⟩).toNat
    let regs := s.regs.set ⟨a.toNat, ha⟩ (BitVec.ofNat 8 (if y ≤ x then x - y else 256 + x - y))
    (s.pc.toNat ≤ 252 → exec (.sub a b) s = .next { s with regs := regs, pc := s.pc + 3#8 }) ∧
    (s.pc.toNat = 253 → exec (.sub a b) s = .next (State.raise { s with regs := regs } (.invalidAddress 256) 0xA1#8))) ∧
  RegisterChecks .sub 0xA1#8 ∧ FetchFaultsFrom 0xA1#8 254

/-- MUL (R100), with the register checks in the order of the spec's decision D12; the advance past 255 raises after
the effect (the spec's decision D6). The opcode byte is the default the spec supplies (R63, 92 D1; log entry 1). -/
def Obligations.MulKeepsLowByte : Prop :=
  (∀ a b : Byte, encode (.mul a b) = [0xA2#8, a, b]) ∧
  (∀ (a b : Byte) (s : State) (ha : a.toNat < 8) (hb : b.toNat < 8),
    let x := (s.regs.get ⟨a.toNat, ha⟩).toNat
    let y := (s.regs.get ⟨b.toNat, hb⟩).toNat
    let regs := s.regs.set ⟨a.toNat, ha⟩ (BitVec.ofNat 8 (x * y % 256))
    (s.pc.toNat ≤ 252 → exec (.mul a b) s = .next { s with regs := regs, pc := s.pc + 3#8 }) ∧
    (s.pc.toNat = 253 → exec (.mul a b) s = .next (State.raise { s with regs := regs } (.invalidAddress 256) 0xA2#8))) ∧
  RegisterChecks .mul 0xA2#8 ∧ FetchFaultsFrom 0xA2#8 254

/-- DIV (R101, present by the spec's decision D2; log entry 2): floor, or DivisionByZero with nothing written; the
advance past 255 raises after the effect (the spec's decision D6). The opcode byte is the default the spec supplies
(R63, 92 D1; log entry 1). -/
def Obligations.DivFloorsOrRaises : Prop :=
  (∀ a b : Byte, encode (.div a b) = [0xA3#8, a, b]) ∧
  (∀ (a b : Byte) (s : State) (ha : a.toNat < 8) (hb : b.toNat < 8),
    let x := (s.regs.get ⟨a.toNat, ha⟩).toNat
    let y := (s.regs.get ⟨b.toNat, hb⟩).toNat
    let regs := s.regs.set ⟨a.toNat, ha⟩ (BitVec.ofNat 8 (x / y))
    (y = 0 → exec (.div a b) s = .next (s.raise (.divisionByZero ⟨b.toNat, hb⟩) 0xA3#8)) ∧
    (y ≠ 0 → s.pc.toNat ≤ 252 → exec (.div a b) s = .next { s with regs := regs, pc := s.pc + 3#8 }) ∧
    (y ≠ 0 → s.pc.toNat = 253 →
      exec (.div a b) s = .next (State.raise { s with regs := regs } (.invalidAddress 256) 0xA3#8))) ∧
  RegisterChecks .div 0xA3#8 ∧ FetchFaultsFrom 0xA3#8 254

/-- CMP (R102): exactly one flag by the unsigned comparison, no register written; the advance past 255 raises after
the effect (the spec's decision D6). The opcode byte is the default the spec supplies (R63, 92 D1; log entry 1). -/
def Obligations.CmpSetsOneFlag : Prop :=
  (∀ a b : Byte, encode (.cmp a b) = [0xA7#8, a, b]) ∧
  (∀ (a b : Byte) (s : State) (ha : a.toNat < 8) (hb : b.toNat < 8),
    let x := (s.regs.get ⟨a.toNat, ha⟩).toNat
    let y := (s.regs.get ⟨b.toNat, hb⟩).toNat
    let flags : Flags := if x = y then ⟨true, false, false⟩ else if x < y then ⟨false, true, false⟩ else ⟨false, false, true⟩
    (s.pc.toNat ≤ 252 → exec (.cmp a b) s = .next { s with flags := flags, pc := s.pc + 3#8 }) ∧
    (s.pc.toNat = 253 → exec (.cmp a b) s = .next (State.raise { s with flags := flags } (.invalidAddress 256) 0xA7#8))) ∧
  RegisterChecks .cmp 0xA7#8 ∧ FetchFaultsFrom 0xA7#8 254

/-- PUSH (R110); `R[r]` is read after the decrement (the spec's decision D11), SP wraps from 0 to 255 (D10); the
advance past 255 raises after the effect (the spec's decision D6). The opcode byte is the default the spec supplies
(R63, 92 D1; log entry 1). -/
def Obligations.PushStoresBelowStack : Prop :=
  (∀ r : Byte, encode (.push r) = [0x45#8, r]) ∧
  (∀ (r : Byte) (s : State) (h : r.toNat < 8),
    let sp := BitVec.ofNat 8 ((s.sp.toNat + 255) % 256)
    let regs := s.regs.set 7 sp
    let mem := s.mem.write sp.toNat (regs.get ⟨r.toNat, h⟩)
    (s.pc.toNat ≤ 253 → exec (.push r) s = .next { s with regs := regs, mem := mem, pc := s.pc + 2#8 }) ∧
    (s.pc.toNat = 254 → exec (.push r) s =
      .next (State.raise { s with regs := regs, mem := mem } (.invalidAddress 256) 0x45#8))) ∧
  (∀ (r : Byte) (s : State), 8 ≤ r.toNat → exec (.push r) s = .next (s.raise (.invalidRegister r) 0x45#8)) ∧
  FetchFaultsFrom 0x45#8 255

/-- POP (R111); SP is incremented after the popped byte is in `R[r]` (the spec's decision D11), underflow from 0xF4 up
(D9); the advance past 255 raises after the effect (the spec's decision D6). The opcode byte is the default the spec
supplies (R63, 92 D1; log entry 1). -/
def Obligations.PopLoadsFromStack : Prop :=
  (∀ r : Byte, encode (.pop r) = [0x46#8, r]) ∧
  (∀ (r : Byte) (s : State) (h : r.toNat < 8),
    let popped := s.regs.set ⟨r.toNat, h⟩ (s.mem.read s.sp.toNat)
    let regs := popped.set 7 (BitVec.ofNat 8 (((popped.get 7).toNat + 1) % 256))
    (s.sp.toNat < 0xF4 → s.pc.toNat ≤ 253 → exec (.pop r) s = .next { s with regs := regs, pc := s.pc + 2#8 }) ∧
    (s.sp.toNat < 0xF4 → s.pc.toNat = 254 →
      exec (.pop r) s = .next (State.raise { s with regs := regs } (.invalidAddress 256) 0x46#8)) ∧
    (0xF4 ≤ s.sp.toNat → exec (.pop r) s = .next (s.raise (.stackUnderflow s.sp) 0x46#8))) ∧
  (∀ (r : Byte) (s : State), 8 ≤ r.toNat → exec (.pop r) s = .next (s.raise (.invalidRegister r) 0x46#8)) ∧
  FetchFaultsFrom 0x46#8 255

/-- CALL (R115); SP wraps from 0 to 255 (R107, the spec's decision D10; log entry 13); the target is read after the
decrement (the spec's decision D11), a return address of 256 raises before any write (D7). The opcode byte is the default the spec supplies (R63, 92 D1; log entry 1). -/
def Obligations.CallPushesReturnAddress : Prop :=
  (∀ r : Byte, encode (.call r) = [0x50#8, r]) ∧
  (∀ (r : Byte) (s : State) (h : r.toNat < 8),
    let sp := BitVec.ofNat 8 ((s.sp.toNat + 255) % 256)
    let regs := s.regs.set 7 sp
    (s.pc.toNat ≤ 253 → exec (.call r) s =
      .next { s with regs := regs, mem := s.mem.write sp.toNat (BitVec.ofNat 8 (s.pc.toNat + 2)),
                     pc := regs.get ⟨r.toNat, h⟩ }) ∧
    (s.pc.toNat = 254 → exec (.call r) s = .next (s.raise (.invalidAddress 256) 0x50#8))) ∧
  (∀ (r : Byte) (s : State), 8 ≤ r.toNat → exec (.call r) s = .next (s.raise (.invalidRegister r) 0x50#8)) ∧
  FetchFaultsFrom 0x50#8 255

/-- RET (R116), at every address; underflow from 0xF4 up (the spec's decision D9). The opcode byte is the default the
spec supplies (R63, 92 D1; log entry 1). -/
def Obligations.RetPopsProgramCounter : Prop :=
  encode .ret = [0x11#8] ∧
  ∀ s : State,
    (s.sp.toNat < 0xF4 → exec .ret s =
      .next { s with regs := s.regs.set 7 (BitVec.ofNat 8 (s.sp.toNat + 1)), pc := s.mem.read s.sp.toNat }) ∧
    (0xF4 ≤ s.sp.toNat → exec .ret s = .next (s.raise (.stackUnderflow s.sp) 0x11#8))

/-- JMP (R117); also at 254, where no advance faults. The opcode byte is the default the spec supplies (R63, 92 D1;
log entry 1). -/
def Obligations.JmpGoesToRegister : Prop :=
  (∀ r : Byte, encode (.jmp r) = [0x54#8, r]) ∧
  (∀ (r : Byte) (s : State) (h : r.toNat < 8), exec (.jmp r) s = .next { s with pc := s.regs.get ⟨r.toNat, h⟩ }) ∧
  (∀ (r : Byte) (s : State), 8 ≤ r.toNat → exec (.jmp r) s = .next (s.raise (.invalidRegister r) 0x54#8)) ∧
  FetchFaultsFrom 0x54#8 255

/-- HLT (R118), at every address; `pc` stays (the spec's decision D8) and no further instruction is fetched (log entry
4). The opcode byte is the default the spec supplies (R63, 92 D1; log entry 1). -/
def Obligations.HltHaltsInPlace : Prop :=
  encode .hlt = [0x01#8] ∧
  ∀ s : State, exec .hlt s = .next { s with run := .halted } ∧ step { s with run := .halted } = .next { s with run := .halted }

/-! ## Frames -/

/-- LDI, ADD, SUB, MUL, DIV change, beside `pc`, the run state and the fault record, at most the destination register:
the others, the flags, the output and every byte of memory are as before. -/
def Obligations.RegisterWritersFrame : Prop :=
  ∀ (d b : Byte) (i : Instr) (s t : State),
    i ∈ [Instr.ldi d b, .add d b, .sub d b, .mul d b, .div d b] → exec i s = .next t →
    (∀ j : RegIndex, j.val ≠ d.toNat → t.getReg j = s.getReg j) ∧ t.flags = s.flags ∧ t.out = s.out ∧
      (∀ a, t.mem.read a = s.mem.read a) ∧ KeptOrFaulted s t

/-- PRN, CMP, JMP, HLT write no register and no byte of memory; CMP alone may change flags, PRN alone the output, HLT
alone halts. That HLT leaves `pc` is the spec's decision D8 (log entry 13). -/
def Obligations.NoRegisterWrittenFrame : Prop :=
  ∀ (x y : Byte) (i : Instr) (s t : State),
    i ∈ [Instr.prn x, .cmp x y, .jmp x, .hlt] → exec i s = .next t →
    (∀ j : RegIndex, t.getReg j = s.getReg j) ∧ (∀ a, t.mem.read a = s.mem.read a) ∧
      (i ≠ .cmp x y → t.flags = s.flags) ∧ (i ≠ .prn x → t.out = s.out) ∧
      (i ≠ .hlt → KeptOrFaulted s t) ∧ (i = .hlt → t.pc = s.pc ∧ t.fault = s.fault)

/-- PUSH and CALL change, beside `pc`, the run state and the fault record, at most R7 and the one byte at the decremented
SP, the address their meanings store to; that SP wraps from 0 is the spec's decision D10 (log entry 13). -/
def Obligations.StackStoresFrame : Prop :=
  ∀ (r : Byte) (i : Instr) (s t : State),
    i ∈ [Instr.push r, .call r] → exec i s = .next t →
    (∀ j : RegIndex, j ≠ 7 → t.getReg j = s.getReg j) ∧ t.flags = s.flags ∧ t.out = s.out ∧
      (∀ a, a ≠ (spDec s.sp).toNat → t.mem.read a = s.mem.read a) ∧ KeptOrFaulted s t

/-- POP changes, beside `pc`, the run state and the fault record, at most its register and R7, RET at most R7; every byte
of memory is as before, the popped one too. -/
def Obligations.StackLoadsFrame : Prop :=
  (∀ (r : Byte) (s t : State), exec (.pop r) s = .next t →
    (∀ j : RegIndex, j.val ≠ r.toNat → j ≠ 7 → t.getReg j = s.getReg j) ∧ t.flags = s.flags ∧ t.out = s.out ∧
      (∀ a, t.mem.read a = s.mem.read a) ∧ KeptOrFaulted s t) ∧
  (∀ s t : State, exec .ret s = .next t →
    (∀ j : RegIndex, j ≠ 7 → t.getReg j = s.getReg j) ∧ t.flags = s.flags ∧ t.out = s.out ∧
      (∀ a, t.mem.read a = s.mem.read a) ∧ KeptOrFaulted s t)

/-! ## Rules about the whole machine -/

/-- Only CMP writes the flags; a CMP whose operands name registers leaves exactly one set (R26), also where its advance
faults after the write (R78, the spec's decision D6; log entry 13); a CMP that raises at its operands, before its write, leaves
them (R96, R77). -/
def Obligations.OnlyCmpWritesFlags : Prop :=
  ∀ (i : Instr) (s t : State), exec i s = .next t →
    ((∀ a b, i ≠ .cmp a b) → t.flags = s.flags) ∧
    (∀ a b, i = .cmp a b → (a.toNat < 8 ∧ b.toNat < 8 → ExactlyOneFlag t.flags) ∧
      (8 ≤ a.toNat ∨ 8 ≤ b.toNat → t.flags = s.flags))

/-- Only PRN (byte 0x47, log entry 1) emits, one byte a step, appended to the stream (R33, R92). -/
def Obligations.OnlyPrnEmits : Prop :=
  ∀ s t : State, step s = .next t →
    t.out = s.out ∨ (s.mem.read s.pc.toNat = 0x47#8 ∧ ∃ v, t.out = s.out ++ [v])

/-- During a run only PUSH (0x45) and CALL (0x50; log entry 1) write memory (R43), one byte (R38), at the decremented SP (R110,
R115), which wraps from 0 to 255 (R107, the spec's decision D10; log entry 13). -/
def Obligations.OnlyPushAndCallStore : Prop :=
  ∀ s t : State, step s = .next t →
    t.mem = s.mem ∨
    ((s.mem.read s.pc.toNat = 0x45#8 ∨ s.mem.read s.pc.toNat = 0x50#8) ∧
      ∃ v, t.mem = s.mem.write ((s.sp.toNat + 255) % 256) v)

/-- HALTED is reached from RUNNING only by executing HLT (R29; byte 0x01, log entry 1), which changes the run state alone
(R118); that `pc` stays too is the spec's decision D8 (log entry 13). -/
def Obligations.OnlyHltHalts : Prop :=
  ∀ s t : State, s.run = .running → step s = .next t → t.run = .halted →
    s.mem.read s.pc.toNat = 0x01#8 ∧ t = { s with run := .halted }

/-- Where `pc` is after an instruction that neither faults nor halts (R23), the sequential sum not wrapping (the spec's
decision D6), and that HLT leaves it (D8). That CALL reads
its register after the decrement is decision D11, the wrap of SP there D10 (log entry 13). -/
def Obligations.NextProgramCounter : Prop :=
  ∀ (s t : State) (m : Op), s.run = .running → s.mem.read s.pc.toNat = opcodeByte m → step s = .next t →
    (m = .hlt → t.pc = s.pc) ∧
    (t.run = .running →
      (m ∈ [Op.ldi, .add, .sub, .mul, .div, .cmp] → t.pc.toNat = s.pc.toNat + 3) ∧
      (m ∈ [Op.prn, .push, .pop] → t.pc.toNat = s.pc.toNat + 2) ∧
      (m = .call → ∃ h : (s.mem.read (s.pc.toNat + 1)).toNat < 8,
        t.pc = (s.regs.set 7 (spDec s.sp)).get ⟨(s.mem.read (s.pc.toNat + 1)).toNat, h⟩) ∧
      (m = .ret → t.pc = s.mem.read s.sp.toNat) ∧
      (m = .jmp → ∃ h : (s.mem.read (s.pc.toNat + 1)).toNat < 8,
        t.pc = s.regs.get ⟨(s.mem.read (s.pc.toNat + 1)).toNat, h⟩))

/-- No instruction reads the flags (R27): from states that differ in the flags alone a step gives states that differ in the
flags alone, and the flags are written alike in both or kept in both. -/
def Obligations.FlagsAreNeverRead : Prop :=
  ∀ (s t : State) (f : Flags), step s = .next t →
    ∃ u, step { s with flags := f } = .next u ∧ { u with flags := t.flags } = t ∧
      (u.flags = t.flags ∨ (t.flags = s.flags ∧ u.flags = f))

/-- Nothing reads the fault record before a fault (R31): a RUNNING machine's step is observed alike whatever the record
holds, so nothing rests on the model's reset value of it (log entry 5). -/
def Obligations.FaultRecordIsNeverRead : Prop :=
  ∀ (s : State) (r : FaultRecord), s.run = .running →
    ∃ t u, step s = .next t ∧ step { s with fault := r } = .next u ∧ u.observe = t.observe

/-- The output port is write-only (R33): what was emitted before changes nothing a step does, and a step's own byte is
appended to it. -/
def Obligations.OutputIsWriteOnly : Prop :=
  ∀ (s t : State) (o : List Byte), step s = .next t →
    ∃ e u, t.out = s.out ++ e ∧ step { s with out := o } = .next u ∧ u = { t with out := o ++ e }

/-- Faults are precise (R131). Where one of the checks 1 to 7 of R132 fails (their order is the spec's decision D12), the fault
leaves registers, flags, `pc`, memory and output as they were. A fault where none of them fails is the sequential advance's
InvalidAddress (R78, the spec's decision D6): it leaves `pc` at the instruction and in place the effects that the same
instruction has at an address where it does not fault. Checks 6 and 7 rest on its decisions D7 and D9 (log
entry 13). -/
def Obligations.FaultsArePrecise : Prop :=
  ∀ s t : State, s.run = .running → step s = .next t → t.run = .faulted →
    match checkBeforeWrites s with
    | some c => t = s.raise c (s.mem.read s.pc.toNat)
    | none => ∃ m, s.mem.read s.pc.toNat = opcodeByte m ∧ advances m = true ∧ s.pc.toNat + operandCount m + 1 = 256 ∧
        ∃ i u, fetch s = .ok i ∧ exec i (s.setPc 0#8) = .next u ∧ u.run = .running ∧
          t = State.raise { u with pc := s.pc } (.invalidAddress 256) (opcodeByte m)

/-- A RUNNING machine faults exactly where the table of R132 has a failing check, and it reports the first one; where none
fails it does not fault. The order is the spec's decision D12, the record its D5. Checks 6, 7 and 8 rest on its
decisions D7, D9 and D6 (log entry 13). -/
def Obligations.FirstFailedCheckIsReported : Prop :=
  ∀ s : State, s.run = .running → ∃ t, step s = .next t ∧
    match firstFailedCheck s with
    | none => t.run ≠ .faulted
    | some c => t.run = .faulted ∧
        t.fault = { kind := c.kind.code, pc := s.pc, ir := s.mem.read s.pc.toNat, info := c.info }

/-- An ALU code outside the five is raised as UnsupportedOperation with nothing written, and no instruction can cause
it (R97, R129; kept by the spec's decision D21). Its code 6 in the record is R123's, the spec's decision D5 (log entry 13). -/
def Obligations.UnsupportedOperationIsUnreachable : Prop :=
  (∀ (op : BitVec 3) (ir a b : Byte) (s : State), a.toNat < 8 → b.toNat < 8 →
    op = 0b100#3 ∨ op = 0b101#3 ∨ op = 0b110#3 → aluFrame op ir a b s = s.raise (.unsupportedOperation op) ir) ∧
  (∀ (i : Instr) (s t : State), s.run = .running → exec i s = .next t → t.run = .faulted → t.fault.kind ≠ 6#3)

/-- Every step keeps the machine's invariant: canonical memory, at most one flag set, HALTED only at a HLT, a fault
record that names `pc` and is one of R123's table. The byte of HLT, 0x01, is the spec's default (D1; log entry 1), that `pc`
stays at it decision D8, and the record's table decision D5 (log entry 13). -/
def Obligations.StepKeepsInvariant : Prop :=
  ∀ s t : State, Inv s → step s = .next t → Inv t

/-- The invariant holds at reset. -/
def Obligations.ResetMeetsInvariant : Prop := Inv State.reset

/-! ## Laws of instruction sequences -/

/-- An LDI followed at once by a PRN of the same register emits exactly the immediate (R93). -/
def Obligations.LdiThenPrnEmitsImmediate : Prop :=
  ∀ (r imm : Byte) (s : State), r.toNat < 8 → s.pc.toNat ≤ 250 →
    ∃ t, execAll [.ldi r imm, .prn r] s = .next t ∧ t.out = s.out ++ [imm] ∧ t.run = s.run

/-- The ALU instructions with one register named twice (R104). DIV's presence is the spec's decision D2 (log entry 2), its
opcode byte 0xA3 in the record the default the spec supplies (92 D1; log entry 1). -/
def Obligations.AluOnOneRegister : Prop :=
  ∀ (r : Byte) (s : State) (h : r.toNat < 8), s.pc.toNat ≤ 252 →
    let n : RegIndex := ⟨r.toNat, h⟩
    let x := (s.getReg n).toNat
    (∀ p ∈ [(Instr.add r r, 2 * x % 256), (.sub r r, 0), (.mul r r, x * x % 256)],
      ∃ t, exec p.1 s = .next t ∧ (t.getReg n).toNat = p.2 ∧ (n = 7 → t.sp.toNat = p.2) ∧ t.run = s.run) ∧
    (x ≠ 0 → ∃ t, exec (.div r r) s = .next t ∧ (t.getReg n).toNat = 1 ∧ (n = 7 → t.sp.toNat = 1) ∧ t.run = s.run) ∧
    (x = 0 → exec (.div r r) s = .next (s.raise (.divisionByZero n) 0xA3#8)) ∧
    (∃ t, exec (.cmp r r) s = .next t ∧ t.flags = ⟨true, false, false⟩ ∧ t.run = s.run)

/-- After N pushes and no other write to R7, SP has decreased by N modulo 256 (R112). -/
def Obligations.PushesLowerStackPointer : Prop :=
  ∀ (rs : List Byte) (s : State), (∀ r ∈ rs, r.toNat < 8) → s.pc.toNat + 2 * rs.length ≤ 255 →
    ∃ t, execAll (rs.map .push) s = .next t ∧ (t.sp.toNat + rs.length) % 256 = s.sp.toNat ∧
      t.pc.toNat = s.pc.toNat + 2 * rs.length ∧ t.run = s.run

/-- A PUSH, then code that leaves SP and the pushed byte alone, then a POP of the same register restores the register
and SP, R7 too, exactly when SP was 0x01 to 0xF4; from any other SP the POP underflows (R113; the bound is the spec's
decision D9). The case of R7 rests on the statement order, the spec's decision D11, the wrap of SP on D10 (log entry 13); POP's
opcode byte 0x46 in the record is the default the spec supplies (92 D1; log entry 1). -/
def Obligations.PushPopRoundTrip : Prop :=
  ∀ (r : Byte) (s : State) (h : r.toNat < 8), s.pc.toNat ≤ 253 →
    ∃ t, exec (.push r) s = .next t ∧ t.run = s.run ∧
      ∀ u : State, u.sp = t.sp → u.mem.read u.sp.toNat = t.mem.read t.sp.toNat → u.pc.toNat ≤ 253 →
        (1 ≤ s.sp.toNat ∧ s.sp.toNat ≤ 0xF4 →
          ∃ v, exec (.pop r) u = .next v ∧ v.getReg ⟨r.toNat, h⟩ = s.getReg ⟨r.toNat, h⟩ ∧ v.sp = s.sp ∧ v.run = u.run) ∧
        (s.sp.toNat = 0 ∨ 0xF5 ≤ s.sp.toNat → exec (.pop r) u = .next (u.raise (.stackUnderflow u.sp) 0x46#8))

/-- A CALL, then code that leaves the stack as it found it, then a RET returns to the instruction after the CALL
(R119). It holds where the RET does not underflow, that is for SP from 0x01 to 0xF4 before the CALL. -/
def Obligations.CallRetReturns : Prop :=
  ∀ (r : Byte) (s : State), r.toNat < 8 → s.pc.toNat ≤ 253 → 1 ≤ s.sp.toNat → s.sp.toNat ≤ 0xF4 →
    ∃ t, exec (.call r) s = .next t ∧ t.run = s.run ∧
      ∀ u : State, u.sp = t.sp → u.mem.read u.sp.toNat = t.mem.read t.sp.toNat →
        ∃ v, exec .ret u = .next v ∧ v.pc.toNat = s.pc.toNat + 2 ∧ v.sp = s.sp ∧ v.run = u.run

/-- A byte that PUSH or CALL wrote is what every later fetch of its address reads, as an opcode or as an operand, until the
address is written again (R54, the spec's decision D17). PUSH stores its register (R110), CALL its return address (R115), at the
decremented SP, which wraps from 0 (R107, D10); that PUSH R7 stores the decremented SP is decision D11 (log entry 13). -/
def Obligations.StoredByteIsFetched : Prop :=
  ∀ (r : Byte) (s : State) (h : r.toNat < 8), s.pc.toNat ≤ 253 →
    let addr := spDec s.sp
    (∃ t, exec (.push r) s = .next t ∧
      ∀ u : State, u.mem.read addr.toNat = t.mem.read addr.toNat → FetchedAs u addr ((s.regs.set 7 addr).get ⟨r.toNat, h⟩)) ∧
    (∃ t, exec (.call r) s = .next t ∧
      ∀ u : State, u.mem.read addr.toNat = t.mem.read addr.toNat → FetchedAs u addr (BitVec.ofNat 8 (s.pc.toNat + 2)))

/-- A JMP to its own address repeats forever (R86): no number of steps changes the state. Opcode byte: log entry 1. -/
def Obligations.JmpToItselfNeverEnds : Prop :=
  ∀ (s : State) (h : (s.mem.read (s.pc.toNat + 1)).toNat < 8), s.run = .running → s.pc.toNat ≤ 254 →
    s.mem.read s.pc.toNat = 0x54#8 → s.regs.get ⟨(s.mem.read (s.pc.toNat + 1)).toNat, h⟩ = s.pc →
    ∀ n, Host.Core.run Sys2Proof.core n s = .next s ∧ SafeFor n s

/-! ## The host's side -/

/-- A loaded program starts at its first instruction (R48, R143, R146): the first step after loading executes the
instruction whose bytes stand first. A program of more than 256 bytes is refused (R147, the spec's decision D24). That the run
starts when reset is released is decision D18. -/
def Obligations.LoadedProgramStarts : Prop :=
  (∀ (i : Instr) (rest : List Byte), (encode i ++ rest).length ≤ 256 →
    ∃ s, State.loaded (encode i ++ rest) = .ok s ∧ step s = exec i s) ∧
  (∀ bytes : List Byte, 256 < bytes.length → State.loaded bytes = .error .tooManyBytes)

/-- An instruction written as program text, one binary line a byte (R70), is read by the loader as its encoding. -/
def Obligations.ProgramTextRoundTrips : Prop :=
  ∀ i : Instr, parseLines (programLines i) = .ok (encode i)

/-- A well-formed instruction's assembly text (R69; log entry 12) reads back as that instruction. -/
def Obligations.AssemblyTextRoundTrips : Prop :=
  ∀ i : Instr, i.wellFormed = true → parseAssembly (assemblyText i) = some i
end

