-- ==== Sys2Proof/Laws/Decoding.lean ====
section
/-! SUPPORT. The opcode map, its decoder and the lengths (30_encoding.md R57, R63, R65). -/

namespace Sys2Proof

/-- Every opcode byte decodes to its own mnemonic. -/
@[simp] theorem decodeOpcode_opcodeByte (m : Op) : decodeOpcode (opcodeByte m) = some m := by
  cases m <;> decide

/-- Whatever the opcode map, a byte the decoder accepts is the byte of the mnemonic it answers. -/
theorem decodeOpcodeWith_some {byte : Op → Byte} {dp : Bool} {ir : Byte} {m : Op}
    (h : decodeOpcodeWith byte dp ir = some m) : byte m = ir ∧ (dp = true ∨ m ≠ .div) := by
  have := List.find?_some h
  simpa using this

/-- The machine's decoder accepts a byte only as the opcode byte of its answer. -/
theorem decodeOpcode_some {ir : Byte} {m : Op} (h : decodeOpcode ir = some m) : ir = opcodeByte m :=
  (decodeOpcodeWith_some h).1.symm

/-- Bits [7:6] of an opcode byte are the operand count (30 R68). -/
@[simp] theorem opcodeNops_opcodeByte (m : Op) : (opcodeNops (opcodeByte m)).toNat = operandCount m := by
  cases m <;> decide

/-- The length of an instruction is its operand count and one more (30 R57). -/
@[simp] theorem opcodeLen_opcodeByte (m : Op) : (opcodeLen (opcodeByte m)).toNat = operandCount m + 1 := by
  cases m <;> decide

@[simp] theorem assemble_op (m : Op) (a b : Byte) : (assemble m a b).op = m := by
  cases m <;> rfl

theorem operandBytes_length (i : Instr) : (operandBytes i).length = operandCount i.op := by
  cases i <;> rfl

end Sys2Proof
end

