-- ==== Sys2Proof/Laws/State.lean ====
section
/-! SUPPORT. One lemma per field of State per update, so that no proof unfolds a record update. -/

namespace Sys2Proof.Machine

open Sys2Proof

variable (s : State)

/-! ### The blocks' ports -/

@[simp] theorem indexByte_toNat (i : RegIndex) : (indexByte i).toNat = i.val := by
  simp [indexByte]; omega

@[simp] theorem indexOf_indexByte (i : RegIndex) : indexOf (indexByte i) = some i := by
  simp [indexOf]

theorem indexOf_ok {r : Byte} (h : r.toNat < 8) : indexOf r = some ⟨r.toNat, h⟩ := by simp [indexOf, h]

theorem indexOf_none {r : Byte} (h : 8 ≤ r.toNat) : indexOf r = none := by simp [indexOf, Nat.not_lt.2 h]

@[simp] theorem RegFile.readData_indexByte (f : RegFile) (i : RegIndex) : f.readData (indexByte i) = f.get i := by
  simp [RegFile.readData]

@[simp] theorem RegFile.afterWrite_indexByte (f : RegFile) (i : RegIndex) (v : Byte) :
    f.afterWrite (indexByte i) v true = f.set i v := by simp [RegFile.afterWrite]

@[simp] theorem RegFile.afterWrite_idle (f : RegFile) (idx v : Byte) : f.afterWrite idx v false = f := rfl

/-- The nine bits of `pc_plus_len` hold the whole sum. -/
@[simp] theorem pcPlusLen_toNat (pc : Byte) (len : BitVec 3) : (pcPlusLen pc len).toNat = pc.toNat + len.toNat := by
  simp [pcPlusLen, BitVec.toNat_add]; omega

theorem State.getReg_port (i : RegIndex) : s.getReg i = s.regs.get i := s.regs.readData_indexByte i

theorem State.setReg_eq (i : RegIndex) (v : Byte) : s.setReg i v = { s with regs := s.regs.set i v } := by
  simp [State.setReg]

theorem State.setPc_eq (v : Byte) : s.setPc v = { s with pc := v } := rfl

theorem State.emit_eq (v : Byte) : s.emit v = { s with out := s.out ++ [v] } := rfl

theorem State.driveFlags_write (f : Flags) : s.driveFlags true f = { s with flags := f } := rfl

@[simp] theorem State.driveFlags_idle (f : Flags) : s.driveFlags false f = s := rfl

/-! ### setReg -/

@[simp] theorem State.setReg_regs (i : RegIndex) (v : Byte) : (s.setReg i v).regs = s.regs.set i v :=
  s.regs.afterWrite_indexByte i v
@[simp] theorem State.setReg_pc (i : RegIndex) (v : Byte) : (s.setReg i v).pc = s.pc := rfl
@[simp] theorem State.setReg_flags (i : RegIndex) (v : Byte) : (s.setReg i v).flags = s.flags := rfl
@[simp] theorem State.setReg_run (i : RegIndex) (v : Byte) : (s.setReg i v).run = s.run := rfl
@[simp] theorem State.setReg_fault (i : RegIndex) (v : Byte) : (s.setReg i v).fault = s.fault := rfl
@[simp] theorem State.setReg_out (i : RegIndex) (v : Byte) : (s.setReg i v).out = s.out := rfl
@[simp] theorem State.setReg_mem (i : RegIndex) (v : Byte) : (s.setReg i v).mem = s.mem := rfl

/-! ### setPc -/

@[simp] theorem State.setPc_regs (v : Byte) : (s.setPc v).regs = s.regs := rfl
@[simp] theorem State.setPc_pc (v : Byte) : (s.setPc v).pc = v := rfl
@[simp] theorem State.setPc_flags (v : Byte) : (s.setPc v).flags = s.flags := rfl
@[simp] theorem State.setPc_run (v : Byte) : (s.setPc v).run = s.run := rfl
@[simp] theorem State.setPc_fault (v : Byte) : (s.setPc v).fault = s.fault := rfl
@[simp] theorem State.setPc_out (v : Byte) : (s.setPc v).out = s.out := rfl
@[simp] theorem State.setPc_mem (v : Byte) : (s.setPc v).mem = s.mem := rfl

/-! ### driveFlags -/

@[simp] theorem State.driveFlags_regs (we : Bool) (f : Flags) : (s.driveFlags we f).regs = s.regs := rfl
@[simp] theorem State.driveFlags_pc (we : Bool) (f : Flags) : (s.driveFlags we f).pc = s.pc := rfl
@[simp] theorem State.driveFlags_flags (we : Bool) (f : Flags) : (s.driveFlags we f).flags = if we then f else s.flags := rfl
@[simp] theorem State.driveFlags_run (we : Bool) (f : Flags) : (s.driveFlags we f).run = s.run := rfl
@[simp] theorem State.driveFlags_fault (we : Bool) (f : Flags) : (s.driveFlags we f).fault = s.fault := rfl
@[simp] theorem State.driveFlags_out (we : Bool) (f : Flags) : (s.driveFlags we f).out = s.out := rfl
@[simp] theorem State.driveFlags_mem (we : Bool) (f : Flags) : (s.driveFlags we f).mem = s.mem := rfl

/-! ### emit -/

@[simp] theorem State.emit_regs (v : Byte) : (s.emit v).regs = s.regs := rfl
@[simp] theorem State.emit_pc (v : Byte) : (s.emit v).pc = s.pc := rfl
@[simp] theorem State.emit_flags (v : Byte) : (s.emit v).flags = s.flags := rfl
@[simp] theorem State.emit_run (v : Byte) : (s.emit v).run = s.run := rfl
@[simp] theorem State.emit_fault (v : Byte) : (s.emit v).fault = s.fault := rfl
@[simp] theorem State.emit_out (v : Byte) : (s.emit v).out = s.out ++ [v] := rfl
@[simp] theorem State.emit_mem (v : Byte) : (s.emit v).mem = s.mem := rfl

/-! ### halt -/

@[simp] theorem State.halt_regs : (s.halt).regs = s.regs := rfl
@[simp] theorem State.halt_pc : (s.halt).pc = s.pc := rfl
@[simp] theorem State.halt_flags : (s.halt).flags = s.flags := rfl
@[simp] theorem State.halt_run : (s.halt).run = .halted := rfl
@[simp] theorem State.halt_fault : (s.halt).fault = s.fault := rfl
@[simp] theorem State.halt_out : (s.halt).out = s.out := rfl
@[simp] theorem State.halt_mem : (s.halt).mem = s.mem := rfl

/-! ### store -/

@[simp] theorem State.store_regs (a v : Byte) : (s.store a v).regs = s.regs := rfl
@[simp] theorem State.store_pc (a v : Byte) : (s.store a v).pc = s.pc := rfl
@[simp] theorem State.store_flags (a v : Byte) : (s.store a v).flags = s.flags := rfl
@[simp] theorem State.store_run (a v : Byte) : (s.store a v).run = s.run := rfl
@[simp] theorem State.store_fault (a v : Byte) : (s.store a v).fault = s.fault := rfl
@[simp] theorem State.store_out (a v : Byte) : (s.store a v).out = s.out := rfl
/-- A load through the port is a read of the one byte at its address. -/
theorem State.load_eq (a : Byte) : s.load a = s.mem.read a.toNat := rfl

/-- A store through the port is a write of the one byte at its address. -/
theorem State.store_eq (a v : Byte) : s.store a v = { s with mem := s.mem.write a.toNat v } := rfl

@[simp] theorem State.store_mem (a v : Byte) : (s.store a v).mem = s.mem.write a.toNat v := rfl

/-! ### raise -/

@[simp] theorem State.raise_regs (c : FaultCause) (ir : Byte) : (s.raise c ir).regs = s.regs := rfl
@[simp] theorem State.raise_pc (c : FaultCause) (ir : Byte) : (s.raise c ir).pc = s.pc := rfl
@[simp] theorem State.raise_flags (c : FaultCause) (ir : Byte) : (s.raise c ir).flags = s.flags := rfl
@[simp] theorem State.raise_run (c : FaultCause) (ir : Byte) : (s.raise c ir).run = .faulted := rfl
@[simp] theorem State.raise_fault (c : FaultCause) (ir : Byte) : (s.raise c ir).fault = ⟨c.kind.code, s.pc, ir, c.info⟩ := rfl
@[simp] theorem State.raise_out (c : FaultCause) (ir : Byte) : (s.raise c ir).out = s.out := rfl
@[simp] theorem State.raise_mem (c : FaultCause) (ir : Byte) : (s.raise c ir).mem = s.mem := rfl

/-! ### setSp -/

@[simp] theorem State.setSp_regs (v : Byte) : (s.setSp v).regs = s.regs.set 7 v := rfl
@[simp] theorem State.setSp_pc (v : Byte) : (s.setSp v).pc = s.pc := rfl
@[simp] theorem State.setSp_flags (v : Byte) : (s.setSp v).flags = s.flags := rfl
@[simp] theorem State.setSp_run (v : Byte) : (s.setSp v).run = s.run := rfl
@[simp] theorem State.setSp_fault (v : Byte) : (s.setSp v).fault = s.fault := rfl
@[simp] theorem State.setSp_out (v : Byte) : (s.setSp v).out = s.out := rfl
@[simp] theorem State.setSp_mem (v : Byte) : (s.setSp v).mem = s.mem := rfl

/-! ### decSp -/

@[simp] theorem State.decSp_regs : (s.decSp).regs = s.regs.set 7 (spDec s.sp) := rfl
@[simp] theorem State.decSp_pc : (s.decSp).pc = s.pc := rfl
@[simp] theorem State.decSp_flags : (s.decSp).flags = s.flags := rfl
@[simp] theorem State.decSp_run : (s.decSp).run = s.run := rfl
@[simp] theorem State.decSp_fault : (s.decSp).fault = s.fault := rfl
@[simp] theorem State.decSp_out : (s.decSp).out = s.out := rfl
@[simp] theorem State.decSp_mem : (s.decSp).mem = s.mem := rfl

/-! ### incSp -/

@[simp] theorem State.incSp_regs : (s.incSp).regs = s.regs.set 7 (spInc s.sp) := rfl
@[simp] theorem State.incSp_pc : (s.incSp).pc = s.pc := rfl
@[simp] theorem State.incSp_flags : (s.incSp).flags = s.flags := rfl
@[simp] theorem State.incSp_run : (s.incSp).run = s.run := rfl
@[simp] theorem State.incSp_fault : (s.incSp).fault = s.fault := rfl
@[simp] theorem State.incSp_out : (s.incSp).out = s.out := rfl
@[simp] theorem State.incSp_mem : (s.incSp).mem = s.mem := rfl

end Sys2Proof.Machine
end

