-- ==== Sys2Proof/Laws/Memory.lean ====
section
/-! SUPPORT. The laws of memory (20_memory.md R38, R47): a read after a write, other cells alone, and that every memory
operation keeps the canonical form. -/

namespace Sys2Proof.Machine

open Sys2Proof

theorem readCells_insert (a b : Nat) (v : Byte) (l : List Host.Cell) :
    readCells b (insertCell a v l) = if b = a then v else readCells b l := by
  induction l with
  | nil => rfl
  | cons p t ih =>
    obtain ⟨c, w⟩ := p
    unfold insertCell
    split
    · rfl
    · split
      · subst c; simp only [readCells]; split <;> rfl
      · simp only [readCells, ih]; split <;> split <;> simp_all

theorem readCells_filter (a b : Nat) (l : List Host.Cell) :
    readCells b (l.filter fun p => p.1 != a) = if b = a then 0#8 else readCells b l := by
  induction l with
  | nil => simp [readCells]
  | cons p t ih =>
    obtain ⟨c, w⟩ := p
    by_cases hc : c = a
    · subst c; simp only [List.filter, bne_self_eq_false, ih, readCells]; split <;> rfl
    · have : (c != a) = true := by simpa using hc
      simp only [List.filter, this, readCells, ih]
      split <;> split <;> simp_all

/-- What a read gives after a write, at the address written and at every other. -/
theorem Memory.read_write (m : Memory) (a b : Nat) (v : Byte) :
    (m.write a v).read b = if b = a then v else m.read b := by
  unfold Memory.write Memory.read
  split
  · subst v; exact readCells_filter a b m.cells
  · exact readCells_insert a b v m.cells

@[simp] theorem Memory.read_write_same (m : Memory) (a : Nat) (v : Byte) : (m.write a v).read a = v := by
  simp [Memory.read_write]

theorem Memory.read_write_other (m : Memory) {a b : Nat} (v : Byte) (h : b ≠ a) : (m.write a v).read b = m.read b := by
  simp [Memory.read_write, h]

theorem insertCell_mem {a : Nat} {v : Byte} {l : List Host.Cell} {p : Host.Cell} (h : p ∈ insertCell a v l) :
    p = (a, v) ∨ p ∈ l := by
  induction l with
  | nil => simpa [insertCell] using h
  | cons q t ih =>
    unfold insertCell at h
    split at h
    · simpa using h
    · split at h
      · simp only [List.mem_cons] at h ⊢; tauto
      · simp only [List.mem_cons] at h ⊢
        rcases h with h | h
        · exact .inr (.inl h)
        · exact (ih h).imp id .inr

theorem insertCell_pairwise {a : Nat} {v : Byte} {l : List Host.Cell} (h : l.Pairwise fun p q => p.1 < q.1) :
    (insertCell a v l).Pairwise fun p q => p.1 < q.1 := by
  induction l with
  | nil => simp [insertCell]
  | cons q t ih =>
    obtain ⟨c, w⟩ := q
    rw [List.pairwise_cons] at h
    unfold insertCell
    split
    · next hlt =>
      rw [List.pairwise_cons, List.pairwise_cons]
      refine ⟨fun p hp => ?_, h⟩
      rcases List.mem_cons.1 hp with rfl | hp
      · exact hlt
      · exact Nat.lt_trans hlt (h.1 p hp)
    · split
      · next heq => subst heq; exact List.pairwise_cons.2 h
      · next hnlt hne =>
        refine List.pairwise_cons.2 ⟨fun p hp => ?_, ih h.2⟩
        rcases insertCell_mem hp with rfl | hp
        · show c < a; omega
        · exact h.1 p hp

/-- A write at an address inside memory keeps the canonical form. -/
theorem Memory.write_wf {m : Memory} (h : m.wf) {a : Nat} (ha : a < Config.memSize) (v : Byte) : (m.write a v).wf := by
  unfold Memory.write
  split
  · exact ⟨h.1.filter _, fun p hp => h.2 p (List.mem_of_mem_filter hp)⟩
  · next hv =>
    refine ⟨insertCell_pairwise h.1, fun p hp => ?_⟩
    rcases insertCell_mem hp with rfl | hp
    · exact ⟨ha, hv⟩
    · exact h.2 p hp

/-! ### The port -/

@[simp] theorem Memory.rdata_portOfRead (m : Memory) (a : Byte) : m.rdata (portOfRead a) = m.read a.toNat := rfl

@[simp] theorem Memory.afterAccess_portOfRead (m : Memory) (a : Byte) : m.afterAccess (portOfRead a) = m := rfl

@[simp] theorem Memory.afterAccess_portOfWrite (m : Memory) (a v : Byte) :
    m.afterAccess (portOfWrite a v) = m.write a.toNat v := rfl

/-- Whatever the port drives, memory keeps the canonical form: the address is a byte. -/
theorem Memory.afterAccess_wf {m : Memory} (h : m.wf) (p : MemPort) : (m.afterAccess p).wf := by
  unfold Memory.afterAccess
  split
  · exact Memory.write_wf h p.addr.isLt p.wdata
  · exact h

/-- `store` keeps the canonical form: its address is a byte. -/
theorem State.store_wf {s : State} (h : s.mem.wf) (a v : Byte) : (s.store a v).mem.wf :=
  Memory.afterAccess_wf h _

/-- `MemWrite` keeps the canonical form. -/
theorem State.memWrite_wf {s t : State} (h : s.mem.wf) {a : Nat} {v : Byte} (hw : s.memWrite a v = .ok t) : t.mem.wf := by
  unfold State.memWrite portAddress at hw
  split at hw <;> cases hw
  exact State.store_wf h _ v

/-- Memory at reset is in canonical form. -/
theorem reset_mem_wf : State.reset.mem.wf := by decide

/-- A canonical memory's first listed address reads as the listed byte, and lower addresses read 0. -/
theorem readCells_below {a : Nat} {l : List Host.Cell} (h : ∀ p ∈ l, a < p.1) : readCells a l = 0#8 := by
  induction l with
  | nil => rfl
  | cons p t ih =>
    have hp := h p (by simp)
    simp only [readCells, if_neg (Nat.ne_of_lt hp)]
    exact ih fun q hq => h q (by simp [hq])

end Sys2Proof.Machine
end

