-- ==== Sys2Proof/Laws/Registers.lean ====
section
/-! SUPPORT. Reading a register after writing one (10_state.md R17, R18). -/

namespace Sys2Proof.Machine

open Sys2Proof

/-- A write is read back from the register it wrote. -/
@[simp] theorem RegFile.get_set_same (f : RegFile) (i : RegIndex) (v : Byte) : (f.set i v).get i = v := by
  fin_cases i <;> rfl

/-- A write leaves every other register alone. -/
theorem RegFile.get_set_other (f : RegFile) {i j : RegIndex} (v : Byte) (h : j ≠ i) : (f.set i v).get j = f.get j := by
  fin_cases i <;> fin_cases j <;> first | rfl | exact absurd rfl h

/-- Both cases of reading after writing at once. -/
theorem RegFile.get_set (f : RegFile) (i j : RegIndex) (v : Byte) :
    (f.set i v).get j = if j = i then v else f.get j := by
  split
  · subst j; simp
  · exact f.get_set_other v ‹_›

/-- The register file is its eight registers. -/
theorem RegFile.ext_get {f g : RegFile} (h : ∀ i, f.get i = g.get i) : f = g := by
  cases f; cases g
  have h0 := h 0; have h1 := h 1; have h2 := h 2; have h3 := h 3
  have h4 := h 4; have h5 := h 5; have h6 := h 6; have h7 := h 7
  simp only [RegFile.get] at h0 h1 h2 h3 h4 h5 h6 h7
  simp [*]

/-- Writing the value a register holds changes nothing. -/
@[simp] theorem RegFile.set_get (f : RegFile) (i : RegIndex) : f.set i (f.get i) = f :=
  RegFile.ext_get fun j => by rw [RegFile.get_set]; split <;> simp [*]

/-- The later of two writes to one register is the one that stands. -/
@[simp] theorem RegFile.set_set (f : RegFile) (i : RegIndex) (v w : Byte) : (f.set i v).set i w = f.set i w :=
  RegFile.ext_get fun j => by simp only [RegFile.get_set]; split <;> rfl

@[simp] theorem State.getReg_eq (s : State) (i : RegIndex) : s.getReg i = s.regs.get i := s.getReg_port i

@[simp] theorem State.sp_eq (s : State) : s.sp = s.regs.get 7 := rfl

end Sys2Proof.Machine
end

