-- ==== Sys2Proof/Laws/Exec.lean ====
section
/-! SUPPORT. For each operation the meanings share, everything it can do, said once. -/

namespace Sys2Proof.Machine

open Sys2Proof

/-! ### Sequencing of checks -/

@[simp] theorem except_ok_bind {α β : Type} (a : α) (f : α → Except FaultCause β) :
    ((Except.ok a : Except FaultCause α) >>= f) = f a := rfl

@[simp] theorem except_pure_bind {α β : Type} (a : α) (f : α → Except FaultCause β) :
    ((pure a : Except FaultCause α) >>= f) = f a := rfl

@[simp] theorem except_error_bind {α β : Type} (c : FaultCause) (f : α → Except FaultCause β) :
    ((Except.error c : Except FaultCause α) >>= f) = .error c := rfl

@[simp] theorem checked_ok (s t : State) (ir : Byte) : checked s ir (.ok t) = t := rfl

@[simp] theorem checked_pure (s t : State) (ir : Byte) : checked s ir (pure t) = t := rfl

@[simp] theorem checked_error (s : State) (ir : Byte) (c : FaultCause) : checked s ir (.error c) = s.raise c ir := rfl

/-- A checked effect is the effect, or one fault raised on the state before it. -/
theorem checked_cases (s : State) (ir : Byte) (e : Except FaultCause State) :
    (∃ t, e = .ok t ∧ checked s ir e = t) ∨ (∃ c, e = .error c ∧ checked s ir e = s.raise c ir) := by
  cases e with
  | ok t => exact .inl ⟨t, rfl, rfl⟩
  | error c => exact .inr ⟨c, rfl, rfl⟩

/-! ### Register operands -/

theorem regIndex_ok {r : Byte} (h : r.toNat < 8) : regIndex r = .ok ⟨r.toNat, h⟩ := by
  rw [regIndex, indexOf_ok h]

theorem regIndex_error {r : Byte} (h : 8 ≤ r.toNat) : regIndex r = .error (.invalidRegister r) := by
  rw [regIndex, indexOf_none h]

/-- A register operand names a register, or is a byte above 7. -/
theorem regIndex_cases (r : Byte) :
    (∃ h : r.toNat < 8, regIndex r = .ok ⟨r.toNat, h⟩) ∨ (8 ≤ r.toNat ∧ regIndex r = .error (.invalidRegister r)) := by
  rcases Nat.lt_or_ge r.toNat 8 with h | h
  · exact .inl ⟨h, regIndex_ok h⟩
  · exact .inr ⟨h, regIndex_error h⟩

/-! ### The sequential advance -/

theorem advance_ok {s : State} {ir : Byte} (h : s.pc.toNat + (opcodeLen ir).toNat < 256) :
    s.advance ir = s.setPc (BitVec.ofNat 8 (s.pc.toNat + (opcodeLen ir).toNat)) := by
  simp [State.advance, Config.memSize, h]

theorem advance_fault {s : State} {ir : Byte} (h : 256 ≤ s.pc.toNat + (opcodeLen ir).toNat) :
    s.advance ir = s.raise (.invalidAddress (s.pc.toNat + (opcodeLen ir).toNat)) ir := by
  simp [State.advance, Config.memSize, Nat.not_lt.2 h]

/-- The advance moves `pc` past the instruction, or raises InvalidAddress with the effects in place. -/
theorem advance_cases (s : State) (ir : Byte) :
    (s.pc.toNat + (opcodeLen ir).toNat < 256 ∧
      s.advance ir = s.setPc (BitVec.ofNat 8 (s.pc.toNat + (opcodeLen ir).toNat))) ∨
    (256 ≤ s.pc.toNat + (opcodeLen ir).toNat ∧
      s.advance ir = s.raise (.invalidAddress (s.pc.toNat + (opcodeLen ir).toNat)) ir) := by
  rcases Nat.lt_or_ge (s.pc.toNat + (opcodeLen ir).toNat) 256 with h | h
  · exact .inl ⟨h, advance_ok h⟩
  · exact .inr ⟨h, advance_fault h⟩

/-- The advance changes `pc`, or the run state and the fault record, and nothing else. -/
theorem advance_frame (s : State) (ir : Byte) :
    (s.advance ir).regs = s.regs ∧ (s.advance ir).flags = s.flags ∧ (s.advance ir).out = s.out ∧
      (s.advance ir).mem = s.mem := by
  rcases advance_cases s ir with ⟨-, h⟩ | ⟨-, h⟩ <;> simp [h]

/-! ### Stack operands -/

theorem checkUnderflow_ok {s : State} (h : s.sp.toNat < 0xF4) : checkUnderflow s = .ok () := by
  have : spUnderflow s.sp = false := by simp only [spUnderflow, Config.spInit]; exact decide_eq_false (Nat.not_le.2 h)
  unfold checkUnderflow; rw [this]; rfl

theorem checkUnderflow_error {s : State} (h : 0xF4 ≤ s.sp.toNat) : checkUnderflow s = .error (.stackUnderflow s.sp) := by
  have : spUnderflow s.sp = true := by simp only [spUnderflow, Config.spInit]; exact decide_eq_true h
  unfold checkUnderflow; rw [this]; rfl

theorem returnAddress_ok {s : State} (h : s.pc.toNat + 2 < 256) : returnAddress s = .ok (s.pc + 2#8) := by
  have : BitVec.ofNat 8 (s.pc.toNat + 2) = s.pc + 2#8 := by apply BitVec.eq_of_toNat_eq; simp [BitVec.toNat_add]
  simp [returnAddress, pcPlus, Config.memSize, h, this]

theorem returnAddress_error {s : State} (h : 256 ≤ s.pc.toNat + 2) :
    returnAddress s = .error (.invalidAddress (s.pc.toNat + 2)) := by
  simp [returnAddress, pcPlus, Config.memSize, Nat.not_lt.2 h]

/-! ### MemRead and MemWrite -/

theorem portAddress_ok {a : Nat} (h : a < 256) : portAddress a = .ok (BitVec.ofNat 8 a) := if_pos h

theorem portAddress_error {a : Nat} (h : 256 ≤ a) : portAddress a = .error (.invalidAddress a) := if_neg (Nat.not_lt.2 h)

theorem memRead_ok {s : State} {a : Nat} (h : a < 256) : s.memRead a = .ok (s.mem.read a) := by
  rw [State.memRead, portAddress_ok h, except_ok_bind, State.load_eq, BitVec.toNat_ofNat, Nat.mod_eq_of_lt h]; rfl

theorem memRead_error {s : State} {a : Nat} (h : 256 ≤ a) : s.memRead a = .error (.invalidAddress a) := by
  rw [State.memRead, portAddress_error h, except_error_bind]

theorem memWrite_ok {s : State} {a : Nat} (v : Byte) (h : a < 256) :
    s.memWrite a v = .ok { s with mem := s.mem.write a v } := by
  rw [State.memWrite, portAddress_ok h, except_ok_bind, State.store_eq, BitVec.toNat_ofNat, Nat.mod_eq_of_lt h]; rfl

theorem memWrite_error {s : State} {a : Nat} (v : Byte) (h : 256 ≤ a) :
    s.memWrite a v = .error (.invalidAddress a) := by
  rw [State.memWrite, portAddress_error h, except_error_bind]

/-! ### The ALU -/

theorem ofInt_add (x y : Byte) : BitVec.ofInt 8 ((x.toNat : Int) + y.toNat) = x + y := by
  apply BitVec.eq_of_toNat_eq; simp [BitVec.toNat_ofInt, BitVec.toNat_add]; omega

theorem ofInt_sub (x y : Byte) : BitVec.ofInt 8 ((x.toNat : Int) - y.toNat) = x - y := by
  apply BitVec.eq_of_toNat_eq; simp [BitVec.toNat_ofInt, BitVec.toNat_sub]; omega

theorem ofInt_mul (x y : Byte) : BitVec.ofInt 8 ((x.toNat : Int) * y.toNat) = x * y := by
  apply BitVec.eq_of_toNat_eq; simp [BitVec.toNat_ofInt, BitVec.toNat_mul]; norm_cast

theorem ofInt_div (x y : Byte) : BitVec.ofInt 8 ((x.toNat / y.toNat : Nat) : Int) = x / y := by
  have hx : x.toNat < 256 := x.isLt
  have := Nat.div_le_self x.toNat y.toNat
  rw [BitVec.ofInt_natCast]
  apply BitVec.eq_of_toNat_eq
  rw [BitVec.toNat_ofNat, BitVec.toNat_udiv, Nat.mod_eq_of_lt (by omega)]

theorem alu8bit_add (x y : Byte) : alu8bit 0b000#3 x y = ⟨x + y, true, false, undrivenFlags 0b000#3 x y, .none⟩ := by
  simp only [← ofInt_add]; rfl

theorem alu8bit_sub (x y : Byte) : alu8bit 0b001#3 x y = ⟨x - y, true, false, undrivenFlags 0b001#3 x y, .none⟩ := by
  simp only [← ofInt_sub]; rfl

theorem alu8bit_mul (x y : Byte) : alu8bit 0b010#3 x y = ⟨x * y, true, false, undrivenFlags 0b010#3 x y, .none⟩ := by
  simp only [← ofInt_mul]; rfl

theorem alu8bit_div {x y : Byte} (h : y ≠ 0#8) :
    alu8bit 0b011#3 x y = ⟨x / y, true, false, undrivenFlags 0b011#3 x y, .none⟩ := by
  have : y.toNat ≠ 0 := fun e => h (BitVec.eq_of_toNat_eq (by simpa using e))
  simp only [← ofInt_div, alu8bit, this]; rfl

theorem alu8bit_div_zero (x : Byte) : (alu8bit 0b011#3 x 0#8).err = .divisionByZero := rfl

theorem alu8bit_cmp (x y : Byte) : (alu8bit 0b111#3 x y).resultWe = false ∧ (alu8bit 0b111#3 x y).flagsWe = true ∧
    (alu8bit 0b111#3 x y).flags = compareFlags x y ∧ (alu8bit 0b111#3 x y).err = .none := ⟨rfl, rfl, rfl, rfl⟩

/-- The frame of an ALU instruction that writes a result: both operands name registers, the ALU reports no error. -/
theorem aluFrame_result {s : State} {op : BitVec 3} {ir a b v : Byte} {f : Flags} (ha : a.toNat < 8) (hb : b.toNat < 8)
    (h : alu8bit op (s.regs.get ⟨a.toNat, ha⟩) (s.regs.get ⟨b.toNat, hb⟩) = ⟨v, true, false, f, .none⟩) :
    aluFrame op ir a b s = (s.setReg ⟨a.toNat, ha⟩ v).advance ir := by
  simp [aluFrame, regIndex_ok ha, regIndex_ok hb, h, aluCheck, State.aluWriteBack, State.setReg_eq]

/-- An ALU instruction's register checks, in their order. -/
theorem aluFrame_badA {s : State} {op : BitVec 3} {ir a b : Byte} (h : 8 ≤ a.toNat) :
    aluFrame op ir a b s = s.raise (.invalidRegister a) ir := by
  simp [aluFrame, regIndex_error h]

theorem aluFrame_badB {s : State} {op : BitVec 3} {ir a b : Byte} (ha : a.toNat < 8) (h : 8 ≤ b.toNat) :
    aluFrame op ir a b s = s.raise (.invalidRegister b) ir := by
  simp [aluFrame, regIndex_ok ha, regIndex_error h]

/-- Everything an ALU instruction can do: raise one fault on the state before it, or write one register or the flags
and advance. -/
theorem aluFrame_cases (op : BitVec 3) (ir a b : Byte) (s : State) :
    (∃ c, aluFrame op ir a b s = s.raise c ir ∧
      ((c = .invalidRegister a ∧ 8 ≤ a.toNat) ∨ (c = .invalidRegister b ∧ 8 ≤ b.toNat) ∨
        (∃ rb, c = .divisionByZero rb) ∨ c = .unsupportedOperation op)) ∨
    (∃ ha : a.toNat < 8, ∃ hb : b.toNat < 8, ∃ o,
      o = alu8bit op (s.regs.get ⟨a.toNat, ha⟩) (s.regs.get ⟨b.toNat, hb⟩) ∧ o.err = .none ∧
      aluFrame op ir a b s = (s.aluWriteBack ⟨a.toNat, ha⟩ o).advance ir) := by
  rcases regIndex_cases a with ⟨ha, ea⟩ | ⟨ha, ea⟩
  · rcases regIndex_cases b with ⟨hb, eb⟩ | ⟨hb, eb⟩
    · cases he : (alu8bit op (s.regs.get ⟨a.toNat, ha⟩) (s.regs.get ⟨b.toNat, hb⟩)).err with
      | none => exact .inr ⟨ha, hb, _, rfl, he, by simp [aluFrame, ea, eb, aluCheck, he]⟩
      | divisionByZero => exact .inl ⟨.divisionByZero ⟨b.toNat, hb⟩, by simp [aluFrame, ea, eb, aluCheck, he], .inr (.inr (.inl ⟨_, rfl⟩))⟩
      | unsupportedOperation => exact .inl ⟨.unsupportedOperation op, by simp [aluFrame, ea, eb, aluCheck, he], .inr (.inr (.inr rfl))⟩
    · exact .inl ⟨_, aluFrame_badB ha hb, .inr (.inl ⟨rfl, hb⟩)⟩
  · exact .inl ⟨_, aluFrame_badA ha, .inl ⟨rfl, ha⟩⟩

end Sys2Proof.Machine
end

