-- ==== Sys2Proof/Laws/Loader.lean ====
section
/-! SUPPORT. Placing bytes in memory keeps the canonical form, the loader's way and the test word's. -/

namespace Sys2Proof.Machine

open Sys2Proof

theorem Memory.writeBytes_wf {m : Memory} (h : m.wf) (bytes : List Byte) : ∀ a, (m.writeBytes a bytes).wf := by
  induction bytes generalizing m with
  | nil => exact fun _ => h
  | cons b rest ih =>
    intro a
    unfold Memory.writeBytes
    split
    · exact ih (Memory.write_wf h ‹_› b) _
    · exact ih h _

theorem placeWord_wf {s : State} (h : s.mem.wf) (nbits w : Nat) : (placeWord s nbits w).mem.wf :=
  Memory.writeBytes_wf h _ _

theorem loadFrom_wf {bytes : List Byte} {s t : State} (h : s.mem.wf) {a : Nat} (hl : loadFrom a s bytes = .ok t) :
    t.mem.wf := by
  induction bytes generalizing s a with
  | nil => cases hl; exact h
  | cons b rest ih =>
    unfold loadFrom at hl
    cases hw : s.memWrite a b with
    | ok u => rw [hw] at hl; exact ih (State.memWrite_wf h hw) hl
    | error c => rw [hw] at hl; cases hl

/-- A loaded machine's memory is in canonical form. -/
theorem loaded_wf {bytes : List Byte} {t : State} (h : State.loaded bytes = .ok t) : t.mem.wf :=
  loadFrom_wf reset_mem_wf h

end Sys2Proof.Machine
end

