-- ==== Sys2Proof/Laws/Step.lean ====
section
/-! SUPPORT. What fetching, a step and an instruction can do (40_fetch_execute.md R71 to R81). -/

namespace Sys2Proof.Machine

open Sys2Proof

/-- Every instruction answers a next state: every error of this hardware is one (60 R130). -/
theorem exec_next (i : Instr) (s : State) : ∃ t, exec i s = .next t := by
  cases i <;> exact ⟨_, rfl⟩

/-- The operand bytes of the instruction at `pc`, 0 for one it lacks. -/
def operandA (s : State) (m : Op) : Byte := if 1 ≤ operandCount m then s.mem.read (s.pc.toNat + 1) else 0#8

@[inherit_doc operandA]
def operandB (s : State) (m : Op) : Byte := if 2 ≤ operandCount m then s.mem.read (s.pc.toNat + 2) else 0#8

theorem fetch_unknown {s : State} (h : decodeOpcode (s.mem.read s.pc.toNat) = none) :
    fetch s = .error (.unknownInstruction (s.mem.read s.pc.toNat)) := by
  simp only [fetch, State.fetchedOpcode, State.load_eq, h]

theorem operandCount_le (m : Op) : operandCount m ≤ 2 := by cases m <;> decide

theorem fetch_ok {s : State} {m : Op} (h : decodeOpcode (s.mem.read s.pc.toNat) = some m)
    (hpc : s.pc.toNat + operandCount m < 256) : fetch s = .ok (assemble m (operandA s m) (operandB s m)) := by
  have hir := decodeOpcode_some h
  have hle := operandCount_le m
  simp only [fetch, State.fetchedOpcode, State.load_eq, h]
  simp only [hir, opcodeNops_opcodeByte, fetchOperand, pcPlus, operandA, operandB]
  split
  · rw [memRead_ok (by omega)]
    split
    · rw [memRead_ok (by omega)]; rfl
    · rfl
  · rw [if_neg (by omega), if_neg (by omega)]; rfl

theorem fetch_truncated {s : State} {m : Op} (h : decodeOpcode (s.mem.read s.pc.toNat) = some m)
    (hpc : 256 ≤ s.pc.toNat + operandCount m) : fetch s = .error (.invalidAddress 256) := by
  have hir := decodeOpcode_some h
  have hle := operandCount_le m
  have hb : s.pc.toNat < 256 := s.pc.isLt
  simp only [fetch, State.fetchedOpcode, State.load_eq, h]
  simp only [hir, opcodeNops_opcodeByte, fetchOperand, pcPlus]
  rw [if_pos (by omega)]
  rcases Nat.lt_or_ge (s.pc.toNat + 1) 256 with h1 | h1
  · rw [memRead_ok h1, if_pos (by omega), memRead_error (by omega)]
    have : s.pc.toNat + 2 = 256 := by omega
    rw [this]; rfl
  · rw [memRead_error h1]
    have : s.pc.toNat + 1 = 256 := by omega
    rw [this]; rfl

/-- Everything a fetch can do. -/
theorem fetch_cases (s : State) :
    (decodeOpcode (s.mem.read s.pc.toNat) = none ∧ fetch s = .error (.unknownInstruction (s.mem.read s.pc.toNat))) ∨
    (∃ m, decodeOpcode (s.mem.read s.pc.toNat) = some m ∧ 256 ≤ s.pc.toNat + operandCount m ∧
      fetch s = .error (.invalidAddress 256)) ∨
    (∃ m, decodeOpcode (s.mem.read s.pc.toNat) = some m ∧ s.pc.toNat + operandCount m < 256 ∧
      fetch s = .ok (assemble m (operandA s m) (operandB s m))) := by
  cases h : decodeOpcode (s.mem.read s.pc.toNat) with
  | none => exact .inl ⟨rfl, fetch_unknown h⟩
  | some m =>
    rcases Nat.lt_or_ge (s.pc.toNat + operandCount m) 256 with hpc | hpc
    · exact .inr (.inr ⟨m, rfl, hpc, fetch_ok h hpc⟩)
    · exact .inr (.inl ⟨m, rfl, hpc, fetch_truncated h hpc⟩)

theorem step_terminal {s : State} (h : s.run ≠ .running) : step s = .next s := by
  unfold step; cases hr : s.run <;> simp_all

theorem step_fetched {s : State} {i : Instr} (h : s.run = .running) (hf : fetch s = .ok i) : step s = exec i s := by
  simp [step, h, hf]

theorem step_fetchFault {s : State} {c : FaultCause} (h : s.run = .running) (hf : fetch s = .error c) :
    step s = .next (s.raise c (s.mem.read s.pc.toNat)) := by
  simp [step, h, hf, fetchFault, State.fetchedOpcode, State.load_eq]

/-- Everything a step can do: stay in a terminal state, raise a fetch fault, or execute the instruction at `pc`. -/
theorem step_cases (s : State) :
    (s.run ≠ .running ∧ step s = .next s) ∨
    (s.run = .running ∧ ∃ c, fetch s = .error c ∧ step s = .next (s.raise c (s.mem.read s.pc.toNat))) ∨
    (s.run = .running ∧ ∃ i, fetch s = .ok i ∧ step s = exec i s) := by
  by_cases hr : s.run = .running
  · cases hf : fetch s with
    | error c => exact .inr (.inl ⟨hr, c, rfl, step_fetchFault hr hf⟩)
    | ok i => exact .inr (.inr ⟨hr, i, rfl, step_fetched hr hf⟩)
  · exact .inl ⟨hr, step_terminal hr⟩

/-- Everything a step can do, in terms of the byte at `pc` and the instruction it begins. -/
theorem step_inversion {s t : State} (h : step s = .next t) :
    (s.run ≠ .running ∧ t = s) ∨
    (s.run = .running ∧ decodeOpcode (s.mem.read s.pc.toNat) = none ∧
      t = s.raise (.unknownInstruction (s.mem.read s.pc.toNat)) (s.mem.read s.pc.toNat)) ∨
    (s.run = .running ∧ ∃ m, s.mem.read s.pc.toNat = opcodeByte m ∧ 256 ≤ s.pc.toNat + operandCount m ∧
      t = s.raise (.invalidAddress 256) (opcodeByte m)) ∨
    (s.run = .running ∧ ∃ i : Instr, s.mem.read s.pc.toNat = i.opcode ∧ s.pc.toNat + operandCount i.op < 256 ∧
      fetch s = .ok i ∧ exec i s = .next t) := by
  by_cases hr : s.run = .running
  · rcases fetch_cases s with ⟨h1, e⟩ | ⟨m, h1, h2, e⟩ | ⟨m, h1, h2, e⟩
    · rw [step_fetchFault hr e] at h
      exact .inr (.inl ⟨hr, h1, by cases h; rfl⟩)
    · rw [step_fetchFault hr e] at h
      have hm := decodeOpcode_some h1
      exact .inr (.inr (.inl ⟨hr, m, hm, h2, by rw [← hm]; cases h; rfl⟩))
    · rw [step_fetched hr e] at h
      exact .inr (.inr (.inr ⟨hr, _, by rw [decodeOpcode_some h1, Instr.opcode, assemble_op],
        by rw [assemble_op]; exact h2, e, h⟩))
  · rw [step_terminal hr] at h
    exact .inl ⟨hr, by cases h; rfl⟩

/-- A run of one step more: the step, then the rest. -/
theorem run_succ {s t : State} (h : step s = .next t) (n : Nat) :
    Host.Core.run Sys2Proof.core (n + 1) s = Host.Core.run Sys2Proof.core n t := by
  have : Sys2Proof.core.step s = .next t := h
  simp only [Host.Core.run, this]

end Sys2Proof.Machine
end

