-- ==== Sys2Proof/Laws/Meanings.lean ====
section
/-! SUPPORT. For each instruction, everything its meaning can do, said once: the checks it raises, and the one effect it has
where they pass. A sequential instruction's effect ends in `advance`, whose cases are `advance_cases`. -/

namespace Sys2Proof.Machine

open Sys2Proof

variable (s : State)

theorem execHlt_eq : exec .hlt s = .next s.halt := rfl

theorem execLdi_cases (r imm : Byte) :
    (8 ≤ r.toNat ∧ exec (.ldi r imm) s = .next (s.raise (.invalidRegister r) (opcodeByte .ldi))) ∨
    (∃ h : r.toNat < 8, exec (.ldi r imm) s = .next ((s.setReg ⟨r.toNat, h⟩ imm).advance (opcodeByte .ldi))) := by
  rcases regIndex_cases r with ⟨h, e⟩ | ⟨h, e⟩
  · exact .inr ⟨h, by simp [exec, execLdi, e]⟩
  · exact .inl ⟨h, by simp [exec, execLdi, e]⟩

theorem execPrn_cases (r : Byte) :
    (8 ≤ r.toNat ∧ exec (.prn r) s = .next (s.raise (.invalidRegister r) (opcodeByte .prn))) ∨
    (∃ h : r.toNat < 8, exec (.prn r) s = .next ((s.emit (s.getReg ⟨r.toNat, h⟩)).advance (opcodeByte .prn))) := by
  rcases regIndex_cases r with ⟨h, e⟩ | ⟨h, e⟩
  · exact .inr ⟨h, by simp [exec, execPrn, e]⟩
  · exact .inl ⟨h, by simp [exec, execPrn, e]⟩

/-- The four ALU instructions that write a register, by their mnemonic. -/
def aluValue : Op → Byte → Byte → Byte
  | .add, x, y => x + y
  | .sub, x, y => x - y
  | .mul, x, y => x * y
  | .div, x, y => x / y
  | _, _, _ => 0#8

theorem aluWrite_cases {m : Op} {op : BitVec 3} (a b : Byte)
    (h : ∀ x y, (m = .div → y ≠ 0#8) → alu8bit op x y = ⟨aluValue m x y, true, false, undrivenFlags op x y, .none⟩)
    (hz : m = .div → op = 0b011#3) :
    (8 ≤ a.toNat ∧ aluFrame op (opcodeByte m) a b s = s.raise (.invalidRegister a) (opcodeByte m)) ∨
    (a.toNat < 8 ∧ 8 ≤ b.toNat ∧ aluFrame op (opcodeByte m) a b s = s.raise (.invalidRegister b) (opcodeByte m)) ∨
    (∃ ha : a.toNat < 8, ∃ hb : b.toNat < 8,
      (m = .div ∧ s.getReg ⟨b.toNat, hb⟩ = 0#8 ∧
        aluFrame op (opcodeByte m) a b s = s.raise (.divisionByZero ⟨b.toNat, hb⟩) (opcodeByte m)) ∨
      ((m = .div → s.getReg ⟨b.toNat, hb⟩ ≠ 0#8) ∧ aluFrame op (opcodeByte m) a b s =
        (s.setReg ⟨a.toNat, ha⟩ (aluValue m (s.getReg ⟨a.toNat, ha⟩) (s.getReg ⟨b.toNat, hb⟩))).advance (opcodeByte m))) := by
  rcases Nat.lt_or_ge a.toNat 8 with ha | ha
  · rcases Nat.lt_or_ge b.toNat 8 with hb | hb
    · refine .inr (.inr ⟨ha, hb, ?_⟩)
      by_cases hd : m = .div ∧ s.getReg ⟨b.toNat, hb⟩ = 0#8
      · refine .inl ⟨hd.1, hd.2, ?_⟩
        obtain ⟨rfl, h0⟩ := hd
        rw [hz rfl]
        simp only [aluFrame, regIndex_ok ha, regIndex_ok hb, except_ok_bind, h0, aluCheck, alu8bit_div_zero,
          except_error_bind, checked_error]
      · have hd' : m = .div → s.getReg ⟨b.toNat, hb⟩ ≠ 0#8 := fun e h0 => hd ⟨e, h0⟩
        simp only [State.getReg_eq] at hd' ⊢
        exact .inr ⟨hd', aluFrame_result ha hb (h _ _ hd')⟩
    · exact .inr (.inl ⟨ha, hb, aluFrame_badB ha hb⟩)
  · exact .inl ⟨ha, aluFrame_badA ha⟩

/-- ADD, SUB, MUL and DIV: the register checks in order, DIV's zero divisor, or one register written and the advance. -/
theorem execAluWrite_cases {m : Op} {i : Instr} (a b : Byte)
    (hi : (m, i) ∈ [(Op.add, Instr.add a b), (.sub, .sub a b), (.mul, .mul a b), (.div, .div a b)]) :
    (8 ≤ a.toNat ∧ exec i s = .next (s.raise (.invalidRegister a) (opcodeByte m))) ∨
    (a.toNat < 8 ∧ 8 ≤ b.toNat ∧ exec i s = .next (s.raise (.invalidRegister b) (opcodeByte m))) ∨
    (∃ ha : a.toNat < 8, ∃ hb : b.toNat < 8,
      (m = .div ∧ s.getReg ⟨b.toNat, hb⟩ = 0#8 ∧
        exec i s = .next (s.raise (.divisionByZero ⟨b.toNat, hb⟩) (opcodeByte m))) ∨
      ((m = .div → s.getReg ⟨b.toNat, hb⟩ ≠ 0#8) ∧ exec i s =
        .next ((s.setReg ⟨a.toNat, ha⟩ (aluValue m (s.getReg ⟨a.toNat, ha⟩) (s.getReg ⟨b.toNat, hb⟩))).advance (opcodeByte m)))) := by
  have key : ∃ op, exec i s = .next (aluFrame op (opcodeByte m) a b s) ∧
      (∀ x y, (m = .div → y ≠ 0#8) → alu8bit op x y = ⟨aluValue m x y, true, false, undrivenFlags op x y, .none⟩) ∧
      (m = .div → op = 0b011#3) := by
    simp only [List.mem_cons, Prod.mk.injEq, List.not_mem_nil, or_false] at hi
    rcases hi with ⟨rfl, rfl⟩ | ⟨rfl, rfl⟩ | ⟨rfl, rfl⟩ | ⟨rfl, rfl⟩
    · exact ⟨_, rfl, fun x y _ => alu8bit_add x y, fun h => by cases h⟩
    · exact ⟨_, rfl, fun x y _ => alu8bit_sub x y, fun h => by cases h⟩
    · exact ⟨_, rfl, fun x y _ => alu8bit_mul x y, fun h => by cases h⟩
    · exact ⟨_, rfl, fun x y h => alu8bit_div (h rfl), fun _ => rfl⟩
  obtain ⟨op, he, h, hz⟩ := key
  rw [he]
  rcases aluWrite_cases s a b h hz with ⟨h1, e⟩ | ⟨h1, h2, e⟩ | ⟨ha, hb, ⟨h1, h2, e⟩ | ⟨h1, e⟩⟩
  · exact .inl ⟨h1, by rw [e]⟩
  · exact .inr (.inl ⟨h1, h2, by rw [e]⟩)
  · exact .inr (.inr ⟨ha, hb, .inl ⟨h1, h2, by rw [e]⟩⟩)
  · exact .inr (.inr ⟨ha, hb, .inr ⟨h1, by rw [e]⟩⟩)

theorem execCmp_cases (a b : Byte) :
    (8 ≤ a.toNat ∧ exec (.cmp a b) s = .next (s.raise (.invalidRegister a) (opcodeByte .cmp))) ∨
    (a.toNat < 8 ∧ 8 ≤ b.toNat ∧ exec (.cmp a b) s = .next (s.raise (.invalidRegister b) (opcodeByte .cmp))) ∨
    (∃ ha : a.toNat < 8, ∃ hb : b.toNat < 8, exec (.cmp a b) s =
      .next ((s.driveFlags true (compareFlags (s.getReg ⟨a.toNat, ha⟩) (s.getReg ⟨b.toNat, hb⟩))).advance (opcodeByte .cmp))) := by
  rcases Nat.lt_or_ge a.toNat 8 with ha | ha
  · rcases Nat.lt_or_ge b.toNat 8 with hb | hb
    · refine .inr (.inr ⟨ha, hb, ?_⟩)
      simp only [exec, execCmp, aluFrame, regIndex_ok ha, regIndex_ok hb, except_ok_bind]
      rfl
    · exact .inr (.inl ⟨ha, hb, by simp only [exec, execCmp, aluFrame_badB ha hb]⟩)
  · exact .inl ⟨ha, by simp only [exec, execCmp, aluFrame_badA ha]⟩

/-- The flags CMP computes are exactly one. -/
theorem compareFlags_eq (x y : Byte) : compareFlags x y =
    if x.toNat = y.toNat then ⟨true, false, false⟩ else if x.toNat < y.toNat then ⟨false, true, false⟩
    else ⟨false, false, true⟩ := by
  unfold compareFlags
  rcases Nat.lt_trichotomy x.toNat y.toNat with h | h | h
  · simp [h, Nat.ne_of_lt h, Nat.le_of_lt h]
  · simp [h]
  · simp [Nat.ne_of_gt h, h, Nat.lt_asymm h]

theorem execPush_cases (r : Byte) :
    (8 ≤ r.toNat ∧ exec (.push r) s = .next (s.raise (.invalidRegister r) (opcodeByte .push))) ∨
    (∃ h : r.toNat < 8, exec (.push r) s =
      .next ((s.decSp.store (spDec s.sp) (s.decSp.getReg ⟨r.toNat, h⟩)).advance (opcodeByte .push))) := by
  rcases regIndex_cases r with ⟨h, e⟩ | ⟨h, e⟩
  · exact .inr ⟨h, by simp [exec, execPush, e]⟩
  · exact .inl ⟨h, by simp [exec, execPush, e]⟩

theorem execPop_cases (r : Byte) :
    (8 ≤ r.toNat ∧ exec (.pop r) s = .next (s.raise (.invalidRegister r) (opcodeByte .pop))) ∨
    (r.toNat < 8 ∧ 0xF4 ≤ s.sp.toNat ∧ exec (.pop r) s = .next (s.raise (.stackUnderflow s.sp) (opcodeByte .pop))) ∨
    (∃ h : r.toNat < 8, s.sp.toNat < 0xF4 ∧ exec (.pop r) s =
      .next ((s.setReg ⟨r.toNat, h⟩ (s.load s.sp)).incSp.advance (opcodeByte .pop))) := by
  rcases regIndex_cases r with ⟨h, e⟩ | ⟨h, e⟩
  · rcases Nat.lt_or_ge s.sp.toNat 0xF4 with hs | hs
    · exact .inr (.inr ⟨h, hs, by simp only [exec, execPop, e, checkUnderflow_ok hs, except_ok_bind, checked_pure]⟩)
    · exact .inr (.inl ⟨h, hs, by simp only [exec, execPop, e, checkUnderflow_error hs, except_ok_bind,
        except_error_bind, checked_error]⟩)
  · exact .inl ⟨h, by simp [exec, execPop, e]⟩

theorem execCall_cases (r : Byte) :
    (8 ≤ r.toNat ∧ exec (.call r) s = .next (s.raise (.invalidRegister r) (opcodeByte .call))) ∨
    (r.toNat < 8 ∧ 256 ≤ s.pc.toNat + 2 ∧
      exec (.call r) s = .next (s.raise (.invalidAddress (s.pc.toNat + 2)) (opcodeByte .call))) ∨
    (∃ h : r.toNat < 8, s.pc.toNat + 2 < 256 ∧ exec (.call r) s =
      .next ((s.decSp.store (spDec s.sp) (s.pc + 2#8)).setPc (s.decSp.getReg ⟨r.toNat, h⟩))) := by
  rcases regIndex_cases r with ⟨h, e⟩ | ⟨h, e⟩
  · rcases Nat.lt_or_ge (s.pc.toNat + 2) 256 with hp | hp
    · exact .inr (.inr ⟨h, hp, by simp [exec, execCall, e, returnAddress_ok hp]⟩)
    · exact .inr (.inl ⟨h, hp, by simp [exec, execCall, e, returnAddress_error hp]⟩)
  · exact .inl ⟨h, by simp [exec, execCall, e]⟩

theorem execRet_cases :
    (0xF4 ≤ s.sp.toNat ∧ exec .ret s = .next (s.raise (.stackUnderflow s.sp) (opcodeByte .ret))) ∨
    (s.sp.toNat < 0xF4 ∧ exec .ret s = .next ((s.setPc (s.load s.sp)).incSp)) := by
  rcases Nat.lt_or_ge s.sp.toNat 0xF4 with hs | hs
  · exact .inr ⟨hs, by simp only [exec, execRet, checkUnderflow_ok hs, except_ok_bind, checked_pure]⟩
  · exact .inl ⟨hs, by simp only [exec, execRet, checkUnderflow_error hs, except_error_bind, checked_error]⟩

theorem execJmp_cases (r : Byte) :
    (8 ≤ r.toNat ∧ exec (.jmp r) s = .next (s.raise (.invalidRegister r) (opcodeByte .jmp))) ∨
    (∃ h : r.toNat < 8, exec (.jmp r) s = .next (s.setPc (s.getReg ⟨r.toNat, h⟩))) := by
  rcases regIndex_cases r with ⟨h, e⟩ | ⟨h, e⟩
  · exact .inr ⟨h, by simp [exec, execJmp, e]⟩
  · exact .inl ⟨h, by simp [exec, execJmp, e]⟩

end Sys2Proof.Machine
end

