-- ==== Sys2Proof/Laws/PerInstr.lean ====
section
/-! SUPPORT. A fact about every instruction as written, per constructor: its encoding is as long as bits [7:6] of its
opcode byte say (30_encoding.md R57, R68). -/

namespace Sys2Proof.Laws.EncodingLength

/-- The encoding has one byte more than bits [7:6] of the opcode byte count. -/
def Statement (i : Instr) : Prop := (encode i).length = (opcodeNops i.opcode).toNat + 1

/-- Both sides are the operand count and one more. -/
theorem holds (i : Instr) : Statement i := by
  simp [Statement, encode, encodeWith, Instr.opcode, operandBytes_length]

theorem hlt : Statement .hlt := holds _
theorem ldi (r imm : Byte) : Statement (.ldi r imm) := holds _
theorem prn (r : Byte) : Statement (.prn r) := holds _
theorem add (ra rb : Byte) : Statement (.add ra rb) := holds _
theorem sub (ra rb : Byte) : Statement (.sub ra rb) := holds _
theorem mul (ra rb : Byte) : Statement (.mul ra rb) := holds _
theorem div (ra rb : Byte) : Statement (.div ra rb) := holds _
theorem cmp (ra rb : Byte) : Statement (.cmp ra rb) := holds _
theorem push (r : Byte) : Statement (.push r) := holds _
theorem pop (r : Byte) : Statement (.pop r) := holds _
theorem call (r : Byte) : Statement (.call r) := holds _
theorem ret : Statement .ret := holds _
theorem jmp (r : Byte) : Statement (.jmp r) := holds _

end Sys2Proof.Laws.EncodingLength
end

