-- ==== Sys2Proof/Tests/Slice0.lean ====
section
/-! SUPPORT. Tests: expected results from 95_test_vectors.md (named in each docstring) or from the rules by hand, and a
witness for the hypotheses of each statement. -/

namespace Sys2Proof.Tests

open Sys2Proof Sys2Proof.Machine Sys2Proof.Safety Sys2Proof.Claims

/-! ## Helpers -/

/-- A register file with R0, R1, R2 and R7 as given and 0 in the others. -/
def regs (r0 r1 r2 : Byte) (sp : Byte := 0xF4#8) : RegFile := ⟨r0, r1, r2, 0#8, 0#8, 0#8, 0#8, sp⟩

/-- The reset state with `pc`, the registers, and bytes in memory from `pc` on. -/
def machine (pc : Byte) (r : RegFile) (code : List Byte) : State :=
  { State.reset with pc := pc, regs := r, mem := Memory.writeBytes ⟨[]⟩ pc.toNat code }

/-- The state with one more byte in memory. -/
def withByte (s : State) (a : Nat) (v : Byte) : State := { s with mem := s.mem.write a v }

/-- What a step answers, where it is a next state. -/
def after (s : State) : Option State :=
  match step s with
  | .next t => some t
  | .fault _ => none
  | .refused _ => none

/-- The kind code, the `pc` and the `info` of the record after a step that ends in FAULTED. -/
def faultAfter (s : State) : Option (BitVec 3 × Byte × BitVec 9) :=
  (after s).bind fun t => if t.run = .faulted then some (t.fault.kind, t.fault.pc, t.fault.info) else none

/-! ## Well-formedness: each check refuses a register above 7 -/

theorem test_wellFormed_accepts : (Instr.ldi 7#8 255#8).wellFormed = true ∧ (Instr.add 7#8 0#8).wellFormed = true := by decide
theorem test_wellFormed_ldi : (Instr.ldi 8#8 0#8).wellFormed = false := by decide
theorem test_wellFormed_prn : (Instr.prn 8#8).wellFormed = false := by decide
theorem test_wellFormed_add : (Instr.add 8#8 0#8).wellFormed = false ∧ (Instr.add 0#8 8#8).wellFormed = false := by decide
theorem test_wellFormed_sub : (Instr.sub 8#8 0#8).wellFormed = false ∧ (Instr.sub 0#8 8#8).wellFormed = false := by decide
theorem test_wellFormed_mul : (Instr.mul 8#8 0#8).wellFormed = false ∧ (Instr.mul 0#8 8#8).wellFormed = false := by decide
theorem test_wellFormed_div : (Instr.div 8#8 0#8).wellFormed = false ∧ (Instr.div 0#8 8#8).wellFormed = false := by decide
theorem test_wellFormed_cmp : (Instr.cmp 8#8 0#8).wellFormed = false ∧ (Instr.cmp 0#8 8#8).wellFormed = false := by decide
theorem test_wellFormed_push : (Instr.push 8#8).wellFormed = false := by decide
theorem test_wellFormed_pop : (Instr.pop 255#8).wellFormed = false := by decide
theorem test_wellFormed_call : (Instr.call 8#8).wellFormed = false := by decide
theorem test_wellFormed_jmp : (Instr.jmp 8#8).wellFormed = false := by decide

/-! ## Decoding: words written out from 30 R63, numbered as spec/opcode_table.json numbers them -/

theorem test_decode_hlt : decodeTableWord 8 0b00000001 = some .hlt := by decide
theorem test_decode_ldi : decodeTableWord 24 0b00001001_00000111_10000010 = some (.ldi 7#8 9#8) := by decide
theorem test_decode_prn : decodeTableWord 16 0b00000010_01000111 = some (.prn 2#8) := by decide
theorem test_decode_add : decodeTableWord 24 0b00000001_00000111_10100000 = some (.add 7#8 1#8) := by decide
theorem test_decode_sub : decodeTableWord 24 0b00000010_00000001_10100001 = some (.sub 1#8 2#8) := by decide
theorem test_decode_mul : decodeTableWord 24 0b00000011_00000100_10100010 = some (.mul 4#8 3#8) := by decide
theorem test_decode_div : decodeTableWord 24 0b00000110_00000101_10100011 = some (.div 5#8 6#8) := by decide
theorem test_decode_cmp : decodeTableWord 24 0b00000001_00000010_10100111 = some (.cmp 2#8 1#8) := by decide
theorem test_decode_push : decodeTableWord 16 0b00000111_01000101 = some (.push 7#8) := by decide
theorem test_decode_pop : decodeTableWord 16 0b00000011_01000110 = some (.pop 3#8) := by decide
theorem test_decode_call : decodeTableWord 16 0b00000001_01010000 = some (.call 1#8) := by decide
theorem test_decode_ret : decodeTableWord 8 0b00010001 = some .ret := by decide
theorem test_decode_jmp : decodeTableWord 16 0b00000010_01010100 = some (.jmp 2#8) := by decide

/-- Only the opcode byte of the table's word is kept where `nbits` is 8: the operand bytes above are 0. -/
theorem test_decode_short : decodeTableWord 8 0xFFFFA0 = some (.add 0#8 0#8) := by decide
/-- Rejected by name: LS-8's NOP, JEQ and MOD, and a byte of three operands (30 R58, R66). -/
theorem test_decode_illegal :
    [0x00#8, 0x55#8, 0xA4#8, 0xC0#8].map (fun b => decode [b, 0#8, 0#8, 0#8]) =
      [.error (.unknownInstruction 0x00#8), .error (.unknownInstruction 0x55#8), .error (.unknownInstruction 0xA4#8),
        .error (.unknownInstruction 0xC0#8)] := by rfl
theorem test_decode_truncated : decode [0x82#8, 0#8] = .error .truncated := by rfl
/-- With DIV absent, 0xA3 is no instruction and the others stay (30 R63). -/
theorem test_decode_noDiv :
    decodeOpcodeWith opcodeByte false 0xA3#8 = none ∧ decodeOpcodeWith opcodeByte false 0xA2#8 = some .mul := by decide

/-! ## Single steps -/

/-- V-LDI-1. -/
theorem test_ldi_loads :
    (after (machine 0#8 (regs 0#8 0#8 0#8) [0x82#8, 0x00#8, 0x08#8])).map (fun t => (t.regs.r0, t.pc)) = some (8#8, 3#8) := by
  decide
/-- V-LDI-5: the advance faults after the write. -/
theorem test_ldi_advance_fault :
    (after (machine 253#8 (regs 0#8 0#8 0#8) [0x82#8, 0x00#8, 0x05#8])).map (fun t => (t.regs.r0, t.pc, t.run, t.fault.info)) =
      some (5#8, 253#8, .faulted, 256#9) := by decide
/-- V-PRN-3. -/
theorem test_prn_stack_pointer :
    (after (machine 0#8 (regs 0#8 0#8 0#8) [0x47#8, 0x07#8])).map (fun t => (t.out, t.pc)) = some ([244#8], 2#8) := by decide
/-- V-PRN-5: the byte is emitted, then the advance faults. -/
theorem test_prn_advance_fault :
    (after (machine 254#8 (regs 9#8 0#8 0#8) [0x47#8, 0x00#8])).map (fun t => (t.out, t.run, t.fault.info)) =
      some ([9#8], .faulted, 256#9) := by decide
/-- V-ADD-2. -/
theorem test_add_wraps :
    (after (machine 0#8 (regs 200#8 100#8 0#8) [0xA0#8, 0x00#8, 0x01#8])).map (fun t => (t.regs.r0, t.regs.r1, t.pc)) =
      some (44#8, 100#8, 3#8) := by decide
/-- V-ADD-7: the first operand is checked first. -/
theorem test_add_register_order :
    faultAfter (machine 0#8 (regs 0#8 0#8 0#8) [0xA0#8, 0x09#8, 0x08#8]) = some (2#3, 0#8, 9#9) := by decide
/-- V-SUB-3. -/
theorem test_sub_wraps :
    (after (machine 0#8 (regs 3#8 7#8 0#8) [0xA1#8, 0x00#8, 0x01#8])).map (fun t => (t.regs.r0, t.pc)) = some (252#8, 3#8) := by
  decide
/-- V-SUB-4. -/
theorem test_sub_same_register :
    (after (machine 0#8 (regs 0#8 0#8 77#8) [0xA1#8, 0x02#8, 0x02#8])).map (fun t => (t.regs.r2, t.pc)) = some (0#8, 3#8) := by
  decide
/-- V-MUL-4. -/
theorem test_mul_low_byte :
    (after (machine 0#8 (regs 255#8 0#8 0#8) [0xA2#8, 0x00#8, 0x00#8])).map (fun t => (t.regs.r0, t.pc)) = some (1#8, 3#8) := by
  decide
/-- V-MUL-3. -/
theorem test_mul_exact :
    (after (machine 0#8 (regs 15#8 17#8 0#8) [0xA2#8, 0x00#8, 0x01#8])).map (fun t => (t.regs.r0, t.flags)) =
      some (255#8, ⟨false, false, false⟩) := by decide
/-- V-DIV-3: unsigned, 7 by 252. -/
theorem test_div_unsigned :
    (after (machine 0#8 (regs 7#8 252#8 0#8) [0xA3#8, 0x00#8, 0x01#8])).map (fun t => (t.regs.r0, t.pc)) = some (0#8, 3#8) := by
  decide
/-- V-DIV-5: the `info` is the divisor's register. -/
theorem test_div_by_zero :
    (after (machine 0#8 (regs 5#8 0#8 0#8) [0xA3#8, 0x00#8, 0x01#8])).map (fun t => (t.regs.r0, t.pc, t.fault)) =
      some (5#8, 0#8, ⟨3#3, 0#8, 0xA3#8, 1#9⟩) := by decide
/-- V-CMP-1, the source's example. -/
theorem test_cmp_less :
    (after (machine 0#8 (regs 5#8 10#8 0#8) [0xA7#8, 0x00#8, 0x01#8])).map (fun t => (t.flags, t.pc)) =
      some (⟨false, true, false⟩, 3#8) := by decide
/-- V-CMP-4: 128 is greater than 127. -/
theorem test_cmp_unsigned :
    (after (machine 0#8 (regs 128#8 127#8 0#8) [0xA7#8, 0x00#8, 0x01#8])).map (fun t => t.flags) =
      some ⟨false, false, true⟩ := by decide
/-- V-PUSH-2: SP wraps from 0 to 255. -/
theorem test_push_wraps :
    (after (machine 0#8 (regs 9#8 0#8 0#8 0x00#8) [0x45#8, 0x00#8])).map (fun t => (t.sp, t.mem.read 0xFF, t.pc)) =
      some (0xFF#8, 9#8, 2#8) := by decide
/-- V-PUSH-3: PUSH R7 stores the decremented SP. -/
theorem test_push_stack_pointer :
    (after (machine 0#8 (regs 0#8 0#8 0#8) [0x45#8, 0x07#8])).map (fun t => (t.sp, t.mem.read 0xF3)) =
      some (0xF3#8, 243#8) := by decide
/-- V-POP-4: past the initial top. -/
theorem test_pop_underflow :
    faultAfter (machine 0#8 (regs 0#8 0#8 0#8 0xF7#8) [0x46#8, 0x00#8]) = some (4#3, 0#8, 247#9) := by decide
/-- V-POP-5: POP R7 ends with the popped byte plus 1. -/
theorem test_pop_stack_pointer :
    (after (withByte (machine 0#8 (regs 0#8 0#8 0#8 0xF0#8) [0x46#8, 0x07#8]) 0xF0 32#8)).map (fun t => (t.sp, t.pc)) =
      some (0x21#8, 2#8) := by decide
/-- V-CALL-1. -/
theorem test_call_pushes :
    (after (machine 6#8 (regs 0#8 11#8 0#8) [0x50#8, 0x01#8])).map (fun t => (t.sp, t.mem.read 0xF3, t.pc)) =
      some (0xF3#8, 8#8, 11#8) := by decide
/-- V-CALL-3: CALL R7 goes to the decremented SP. -/
theorem test_call_stack_pointer :
    (after (machine 0#8 (regs 0#8 0#8 0#8) [0x50#8, 0x07#8])).map (fun t => (t.sp, t.mem.read 0xF3, t.pc)) =
      some (0xF3#8, 2#8, 243#8) := by decide
/-- V-RET-4: at 255, no advance. -/
theorem test_ret_at_255 :
    (after (withByte (machine 255#8 (regs 0#8 0#8 0#8 0xF3#8) [0x11#8]) 0xF3 16#8)).map (fun t => (t.sp, t.pc, t.run)) =
      some (0xF4#8, 16#8, .running) := by decide
/-- V-RET-2. -/
theorem test_ret_underflow : faultAfter (machine 0#8 (regs 0#8 0#8 0#8) [0x11#8]) = some (4#3, 0#8, 244#9) := by decide
/-- V-JMP-2: at 254, no advance and no fault. -/
theorem test_jmp_at_254 :
    (after (machine 254#8 (regs 5#8 0#8 0#8) [0x54#8, 0x02#8])).map (fun t => (t.pc, t.run)) = some (0#8, .running) := by decide
/-- V-JMP-5. -/
theorem test_jmp_register : faultAfter (machine 0#8 (regs 0#8 0#8 0#8) [0x54#8, 0x08#8]) = some (2#3, 0#8, 8#9) := by decide
/-- V-HLT-2: at 255. -/
theorem test_hlt_at_255 :
    (after (machine 255#8 (regs 0#8 0#8 0#8) [0x01#8])).map (fun t => (t.pc, t.run)) = some (255#8, .halted) := by decide

/-- V-DEC-2, the source's example, and V-DEC-6, at 255. -/
theorem test_unknown :
    faultAfter (machine 0#8 (regs 0#8 0#8 0#8) [0xFF#8]) = some (5#3, 0#8, 255#9) ∧
    faultAfter (machine 255#8 (regs 0#8 0#8 0#8) [0x83#8]) = some (5#3, 255#8, 131#9) := by decide
/-- V-PRI-2, V-PRI-4, V-PRI-5, V-PRI-6, V-PRI-7: which check wins. -/
theorem test_check_order :
    faultAfter (machine 254#8 (regs 0#8 0#8 0#8) [0xA0#8, 0x09#8]) = some (1#3, 254#8, 256#9) ∧
    faultAfter (machine 254#8 (regs 0#8 0#8 0#8) [0x50#8, 0x08#8]) = some (2#3, 254#8, 8#9) ∧
    faultAfter (machine 0#8 (regs 0#8 0#8 0#8) [0x46#8, 0x09#8]) = some (2#3, 0#8, 9#9) ∧
    faultAfter (machine 253#8 (regs 0#8 0#8 0#8) [0xA3#8, 0x00#8, 0x01#8]) = some (3#3, 253#8, 1#9) ∧
    faultAfter (machine 253#8 (regs 0#8 0#8 0#8) [0x82#8, 0x08#8, 0x05#8]) = some (2#3, 253#8, 8#9) := by decide
/-- P6: from bare reset the first step faults. -/
theorem test_reset_first_step : faultAfter State.reset = some (5#3, 0#8, 0#9) := by decide
/-- A table word placed at reset is what the next step runs (the bytes of V-LDI-1). -/
theorem test_withFetchWord :
    (after (State.reset.withFetchWord 24 0x080082)).map (fun t => (t.regs.r0, t.pc, t.run)) = some (8#8, 3#8, .running) := by
  decide

/-! ## The host's side and the blocks' ports -/

/-- 40 R84: the status outputs of a FAULTED machine. -/
theorem test_fsm_status :
    (after (machine 0#8 (regs 0#8 0#8 0#8) [0xFF#8])).map State.fsmStatus = some ⟨0b10#2, 5#3, 0#8, 0xFF#8, 255#9⟩ := by decide
/-- 40 R85, 10 R17: a write port with an index of 8, or without its enable, writes nothing. -/
theorem test_register_write_port :
    (regs 1#8 2#8 3#8).next ⟨0#8, 0#8, 8#8, 9#8, true⟩ = regs 1#8 2#8 3#8 ∧
    (regs 1#8 2#8 3#8).next ⟨0#8, 0#8, 1#8, 9#8, false⟩ = regs 1#8 2#8 3#8 ∧
    (regs 1#8 2#8 3#8).next ⟨0#8, 0#8, 1#8, 9#8, true⟩ = regs 1#8 9#8 3#8 := by decide
/-- 10 R24, R28: reset sets `pc` to 0 and clears the flags. -/
theorem test_block_reset :
    pcAfter 5#8 ⟨false, 9#8, true⟩ = 0#8 ∧
    Flags.after ⟨true, false, false⟩ ⟨false, true, true, true, true⟩ = ⟨false, false, false⟩ := by decide

/-- 10 R28: bit 0 is E, bit 1 is G, bit 2 is L. -/
theorem test_packed_flags :
    packedFlags ⟨true, false, false⟩ = 1#8 ∧ packedFlags ⟨false, true, false⟩ = 4#8 ∧ packedFlags ⟨false, false, true⟩ = 2#8 := by
  decide
/-- 41 R92: digits without leading zeros, 0 for zero. -/
theorem test_output_lines : outputLines [72#8, 0#8] = [['7', '2'], ['0']] := by decide
/-- 60 R136: HALTED is 0, UnknownInstruction 1, a missing file 2. -/
theorem test_exit_codes :
    State.exitCode { State.reset with run := .halted } = some 0 ∧ faultExitCode 5#3 = 1 ∧ fileNotFoundExitCode = 2 := by decide
/-- 70 R146, R147: a comment, blanks round a literal, an empty line, a short literal. -/
theorem test_loader_lines :
    parseLines [[' ', '1', '0', '0', '0', '0', '0', '1', '0', ' ', '#', 'L', 'D', 'I'], [], ['1', '1']] =
      .ok [0x82#8, 0x03#8] := by rfl
theorem test_loader_refuses : parseLines [['1', '2']] = .error .badCharacter := by rfl
/-- 30 R69: SP is R7. -/
theorem test_assembly_text :
    parseAssembly ['L', 'D', 'I', ' ', 'S', 'P', ',', '3', '2'] = some (.ldi 7#8 32#8) ∧
    assemblyText (.ldi 7#8 32#8) = ['L', 'D', 'I', ' ', 'R', '7', ',', '3', '2'] := by decide

/-! ## Witnesses: states and operands that meet each statement's hypotheses, at the boundaries of its clauses -/

theorem witness_DecodedBytesAreEncoding :
    decode [0x82#8, 0x07#8, 0xFF#8, 0x09#8] = .ok (.ldi 7#8 255#8, [0x09#8]) ∧ decode [0x01#8] = .ok (.hlt, []) := ⟨rfl, rfl⟩

theorem witness_DecoderOutputsMatchTable :
    0xC0#8 ∉ [0x01#8, 0x82#8, 0x47#8, 0xA0#8, 0xA1#8, 0xA2#8, 0xA3#8, 0xA7#8, 0x45#8, 0x46#8, 0x50#8, 0x11#8, 0x54#8] := by
  decide

/-- Another map of OPCODE_BYTE: every default byte with bit 3 turned. -/
def otherMap (m : Op) : Byte := opcodeByte m ^^^ 0x08#8

theorem witness_AnyOpcodeMapRoundTrips :
    (∀ m n, otherMap m = otherMap n → m = n) ∧ (∀ m, (otherMap m).toNat / 64 = operandCount m) ∧
      otherMap .hlt ≠ opcodeByte .hlt ∧ (Instr.div 0#8 1#8).op = .div ∧ (Instr.mul 0#8 1#8).op ≠ .div := by
  refine ⟨fun m n => ?_, fun m => ?_, by decide, by decide, by decide⟩
  · cases m <;> cases n <;> decide
  · cases m <;> decide

theorem witness_RegisterOperandIsWholeByte : (7#8).toNat ≤ 7 ∧ 8 ≤ (8#8).toNat ∧ 8 ≤ (255#8).toNat := by decide

theorem witness_RegisterWriteStoresModulo256 :
    (6 : RegIndex) ≠ 7 ∧ 8 ≤ (8#8).toNat ∧ Instr.pop 8#8 ∈ [Instr.ldi 8#8 0#8, .add 8#8 0#8, .sub 8#8 0#8, .mul 8#8 0#8,
      .div 8#8 0#8, .pop 8#8] := by decide

theorem witness_MemoryAccessIsOneCell : 255 ≤ 255 ∧ 254 ≠ 255 ∧ 256 ≤ 256 := by decide

theorem witness_AccessesGoThroughPort : 255 ≤ 255 ∧ 256 ≤ 256 := by decide

/-- Indices 7 and 8; an ALU instruction whose second operand is above 7, and one with neither that faults. -/
theorem witness_BlocksAreReachedThroughPorts :
    (7#8).toNat < 8 ∧ 8 ≤ (8#8).toNat ∧ (7#8).toNat = (7 : RegIndex).val ∧
      (registerOperandBytes (.add 7#8 8#8)).find? (fun r => decide (7 < r.toNat)) = some 8#8 ∧
      idxErr (registerOperandBytes (.div 0#8 1#8)) = false ∧
      ∃ t, exec (.div 0#8 1#8) (machine 0#8 (regs 5#8 0#8 0#8) []) = .next t ∧ t.run = .faulted :=
  ⟨by decide, by decide, by decide, by decide, by decide, _, rfl, rfl⟩

theorem witness_MemoryIsItsBytes :
    (⟨[(255, 1#8)]⟩ : Memory).wf ∧ ((⟨[]⟩ : Memory).write 255 1#8).wf ∧
      ∀ a, a ≤ 255 → (⟨[(255, 1#8)]⟩ : Memory).read a = ((⟨[]⟩ : Memory).write 255 1#8).read a :=
  ⟨by decide, by decide, fun _ _ => rfl⟩

theorem witness_ResetValues : (List.replicate 256 0x01#8).length ≤ 256 := by rw [List.length_replicate]

theorem witness_AluFunction :
    (1#8).toNat ≠ 0 ∧ (0#8).toNat = 0 ∧ (0b110#3 = 0b100#3 ∨ 0b110#3 = 0b101#3 ∨ 0b110#3 = 0b110#3) := by decide

/-- ADD R0,R1 in the last three bytes of memory. -/
def addAtEnd : State := machine 253#8 (regs 1#8 2#8 0#8) [0xA0#8, 0x00#8, 0x01#8]

theorem witness_StepRunsDecodedInstruction :
    addAtEnd.run = .running ∧ decode (addAtEnd.bytesFrom addAtEnd.pc.toNat 3) = .ok (.add 0#8 1#8, []) ∧
      decode ((machine 255#8 (regs 0#8 0#8 0#8) [0x01#8]).bytesFrom 255 3) = .ok (.hlt, []) := ⟨rfl, rfl, rfl⟩

theorem witness_UnknownOpcodeRaises :
    (machine 255#8 (regs 0#8 0#8 0#8) [0x83#8]).run = .running ∧
      (instructionDecoder ((machine 255#8 (regs 0#8 0#8 0#8) [0x83#8]).mem.read 255)).valid = false := ⟨rfl, rfl⟩

/-- The last address at which the operands of an instruction are in memory, and the first at which they are not. -/
theorem witness_OperandFetch :
    addAtEnd.run = .running ∧ addAtEnd.mem.read addAtEnd.pc.toNat = opcodeByte .add ∧
      253 + (instructionDecoder (opcodeByte .add)).nops.toNat ≤ 255 ∧
      (machine 254#8 (regs 0#8 0#8 0#8) [0xA0#8]).mem.read 254 = opcodeByte .add ∧
      256 ≤ 254 + (instructionDecoder (opcodeByte .add)).nops.toNat ∧
      (machine 255#8 (regs 0#8 0#8 0#8) [0x47#8]).mem.read 255 = opcodeByte .prn ∧
      256 ≤ 255 + (instructionDecoder (opcodeByte .prn)).nops.toNat := by
  refine ⟨rfl, rfl, by decide, rfl, by decide, rfl, by decide⟩

theorem witness_TerminalStatesAreInert :
    Terminal { State.reset with run := .halted } ∧ Terminal { State.reset with run := .faulted } := by
  constructor <;> simp [Terminal]

/-- A RUNNING machine with one opcode byte at `pc`, the hypotheses of FetchFaultsFrom. -/
def lastByte (pc ir : Byte) : State := machine pc (regs 0#8 0#8 0#8) [ir]

theorem witness_LdiLoadsImmediate : (7#8).toNat < 8 ∧ 8 ≤ (8#8).toNat ∧ (lastByte 252#8 0x82#8).pc.toNat ≤ 252 ∧
    (lastByte 253#8 0x82#8).pc.toNat = 253 ∧ (lastByte 254#8 0x82#8).mem.read 254 = 0x82#8 := by decide
theorem witness_PrnEmitsRegister : (7#8).toNat < 8 ∧ 8 ≤ (8#8).toNat ∧ (lastByte 253#8 0x47#8).pc.toNat ≤ 253 ∧
    (lastByte 254#8 0x47#8).pc.toNat = 254 ∧ (lastByte 255#8 0x47#8).mem.read 255 = 0x47#8 := by decide
theorem witness_AddWrapsModulo256 : (7#8).toNat < 8 ∧ (8#8).toNat ≥ 8 ∧ (lastByte 252#8 0xA0#8).pc.toNat ≤ 252 ∧
    (lastByte 253#8 0xA0#8).pc.toNat = 253 ∧ (lastByte 254#8 0xA0#8).mem.read 254 = 0xA0#8 := by decide
theorem witness_SubWrapsModulo256 : (7#8).toNat < 8 ∧ (8#8).toNat ≥ 8 ∧ (lastByte 252#8 0xA1#8).pc.toNat ≤ 252 ∧
    (lastByte 253#8 0xA1#8).pc.toNat = 253 ∧ (lastByte 254#8 0xA1#8).mem.read 254 = 0xA1#8 := by decide
theorem witness_MulKeepsLowByte : (7#8).toNat < 8 ∧ (8#8).toNat ≥ 8 ∧ (lastByte 252#8 0xA2#8).pc.toNat ≤ 252 ∧
    (lastByte 253#8 0xA2#8).pc.toNat = 253 ∧ (lastByte 254#8 0xA2#8).mem.read 254 = 0xA2#8 := by decide
/-- A divisor of 0 and one of 1, the register R7 and a register byte of 8. -/
theorem witness_DivFloorsOrRaises : (7#8).toNat < 8 ∧ (8#8).toNat ≥ 8 ∧ ((regs 5#8 0#8 0#8).get 1).toNat = 0 ∧
    ((regs 5#8 1#8 0#8).get 1).toNat ≠ 0 ∧ (lastByte 252#8 0xA3#8).pc.toNat ≤ 252 ∧ (lastByte 253#8 0xA3#8).pc.toNat = 253 ∧
    (lastByte 254#8 0xA3#8).mem.read 254 = 0xA3#8 := by decide
theorem witness_CmpSetsOneFlag : (7#8).toNat < 8 ∧ (8#8).toNat ≥ 8 ∧ (lastByte 252#8 0xA7#8).pc.toNat ≤ 252 ∧
    (lastByte 253#8 0xA7#8).pc.toNat = 253 ∧ (lastByte 254#8 0xA7#8).mem.read 254 = 0xA7#8 := by decide
theorem witness_PushStoresBelowStack : (7#8).toNat < 8 ∧ (8#8).toNat ≥ 8 ∧ (lastByte 253#8 0x45#8).pc.toNat ≤ 253 ∧
    (lastByte 254#8 0x45#8).pc.toNat = 254 ∧ (lastByte 255#8 0x45#8).mem.read 255 = 0x45#8 := by decide
/-- SP at 0xF3 and at 0xF4. -/
theorem witness_PopLoadsFromStack : (7#8).toNat < 8 ∧ (8#8).toNat ≥ 8 ∧
    (machine 253#8 (regs 0#8 0#8 0#8 0xF3#8) []).sp.toNat < 0xF4 ∧ 0xF4 ≤ (machine 253#8 (regs 0#8 0#8 0#8) []).sp.toNat ∧
    (lastByte 253#8 0x46#8).pc.toNat ≤ 253 ∧ (lastByte 254#8 0x46#8).pc.toNat = 254 ∧
    (lastByte 255#8 0x46#8).mem.read 255 = 0x46#8 := by decide
theorem witness_CallPushesReturnAddress : (7#8).toNat < 8 ∧ (8#8).toNat ≥ 8 ∧ (lastByte 253#8 0x50#8).pc.toNat ≤ 253 ∧
    (lastByte 254#8 0x50#8).pc.toNat = 254 ∧ (lastByte 255#8 0x50#8).mem.read 255 = 0x50#8 := by decide
theorem witness_RetPopsProgramCounter :
    (machine 255#8 (regs 0#8 0#8 0#8 0xF3#8) []).sp.toNat < 0xF4 ∧ 0xF4 ≤ (machine 255#8 (regs 0#8 0#8 0#8) []).sp.toNat := by
  decide
theorem witness_JmpGoesToRegister :
    (7#8).toNat < 8 ∧ (8#8).toNat ≥ 8 ∧ (lastByte 255#8 0x54#8).mem.read 255 = 0x54#8 := by decide

/-- Each of the five completes, and each can fault. -/
theorem witness_RegisterWritersFrame :
    ∀ i ∈ [Instr.ldi 7#8 0#8, .add 7#8 0#8, .sub 7#8 0#8, .mul 7#8 0#8, .div 7#8 0#8],
      (∃ t, exec i (machine 252#8 (regs 1#8 0#8 0#8) []) = .next t ∧ t.run = .running) ∧
      (∃ t, exec i (machine 253#8 (regs 1#8 0#8 0#8) []) = .next t ∧ t.run = .faulted) := by
  simp only [List.mem_cons, List.not_mem_nil, or_false, forall_eq_or_imp, forall_eq]
  exact ⟨⟨⟨_, rfl, rfl⟩, ⟨_, rfl, rfl⟩⟩, ⟨⟨_, rfl, rfl⟩, ⟨_, rfl, rfl⟩⟩, ⟨⟨_, rfl, rfl⟩, ⟨_, rfl, rfl⟩⟩,
    ⟨⟨_, rfl, rfl⟩, ⟨_, rfl, rfl⟩⟩, ⟨⟨_, rfl, rfl⟩, ⟨_, rfl, rfl⟩⟩⟩

theorem witness_NoRegisterWrittenFrame :
    (∃ t, exec (.prn 7#8) (machine 253#8 (regs 1#8 0#8 0#8) []) = .next t ∧ t.out = [0xF4#8]) ∧
    (∃ t, exec (.cmp 7#8 0#8) (machine 252#8 (regs 1#8 0#8 0#8) []) = .next t ∧ t.flags.g = true) ∧
    (∃ t, exec (.jmp 8#8) (machine 252#8 (regs 1#8 0#8 0#8) []) = .next t ∧ t.run = .faulted) ∧
    (∃ t, exec .hlt (machine 255#8 (regs 1#8 0#8 0#8) []) = .next t ∧ t.run = .halted) :=
  ⟨⟨_, rfl, rfl⟩, ⟨_, rfl, rfl⟩, ⟨_, rfl, rfl⟩, ⟨_, rfl, rfl⟩⟩

/-- PUSH at SP 0, where the stored byte is at 255, and CALL at SP 0xF4. -/
theorem witness_StackStoresFrame :
    (∃ t, exec (.push 0#8) (machine 0#8 (regs 1#8 0#8 0#8 0x00#8) []) = .next t ∧ t.mem.read 255 = 1#8) ∧
    (∃ t, exec (.call 0#8) (machine 0#8 (regs 1#8 0#8 0#8) []) = .next t ∧ t.mem.read 0xF3 = 2#8) ∧
    (spDec (machine 0#8 (regs 1#8 0#8 0#8 0x00#8) []).sp).toNat = 255 :=
  ⟨⟨_, rfl, rfl⟩, ⟨_, rfl, rfl⟩, rfl⟩

theorem witness_StackLoadsFrame :
    (∃ t, exec (.pop 1#8) (withByte (machine 0#8 (regs 1#8 0#8 0#8 0xF3#8) []) 0xF3 9#8) = .next t ∧ t.regs.r1 = 9#8) ∧
    (∃ t, exec (.pop 1#8) (machine 0#8 (regs 1#8 0#8 0#8) []) = .next t ∧ t.run = .faulted) ∧
    (∃ t, exec .ret (withByte (machine 0#8 (regs 1#8 0#8 0#8 0xF3#8) []) 0xF3 9#8) = .next t ∧ t.pc = 9#8) :=
  ⟨⟨_, rfl, rfl⟩, ⟨_, rfl, rfl⟩, ⟨_, rfl, rfl⟩⟩

theorem witness_OnlyCmpWritesFlags :
    (∃ t, exec (.cmp 7#8 0#8) addAtEnd = .next t) ∧ (∃ t, exec (.cmp 7#8 8#8) addAtEnd = .next t) ∧
    (∃ t, exec (.add 7#8 0#8) addAtEnd = .next t) ∧ (∀ a b : Byte, Instr.add 7#8 0#8 ≠ .cmp a b) ∧
    (7#8).toNat < 8 ∧ 8 ≤ (8#8).toNat :=
  ⟨⟨_, rfl⟩, ⟨_, rfl⟩, ⟨_, rfl⟩, by simp, by decide, by decide⟩

/-- A PRN, a PUSH and a CALL, a HLT at 255: steps that do what the rules say only they do. -/
theorem witness_OnlyPrnEmits :
    ∃ t, step (machine 0#8 (regs 72#8 0#8 0#8) [0x47#8, 0x00#8]) = .next t ∧ t.out = [72#8] := ⟨_, rfl, rfl⟩
theorem witness_OnlyPushAndCallStore :
    (∃ t, step (machine 0#8 (regs 9#8 0#8 0#8 0x00#8) [0x45#8, 0x00#8]) = .next t ∧ t.mem.read 255 = 9#8) ∧
    (∃ t, step (machine 6#8 (regs 0#8 11#8 0#8) [0x50#8, 0x01#8]) = .next t ∧ t.mem.read 0xF3 = 8#8) :=
  ⟨⟨_, rfl, rfl⟩, ⟨_, rfl, rfl⟩⟩
theorem witness_OnlyHltHalts :
    (machine 255#8 (regs 0#8 0#8 0#8) [0x01#8]).run = .running ∧
      ∃ t, step (machine 255#8 (regs 0#8 0#8 0#8) [0x01#8]) = .next t ∧ t.run = .halted := ⟨rfl, _, rfl, rfl⟩

/-- One instruction of each clause, at the last address from which it does not fault. -/
theorem witness_NextProgramCounter :
    (∃ t, step (machine 252#8 (regs 0#8 0#8 0#8) [0x82#8, 0x07#8, 0x01#8]) = .next t ∧ t.run = .running) ∧
    (∃ t, step (machine 253#8 (regs 0#8 0#8 0#8) [0x45#8, 0x07#8]) = .next t ∧ t.run = .running) ∧
    (∃ t, step (machine 253#8 (regs 0#8 0#8 0#8) [0x50#8, 0x07#8]) = .next t ∧ t.run = .running) ∧
    (∃ t, step (machine 255#8 (regs 0#8 0#8 0#8 0xF3#8) [0x11#8]) = .next t ∧ t.run = .running) ∧
    (∃ t, step (machine 254#8 (regs 0#8 0#8 0#8) [0x54#8, 0x07#8]) = .next t ∧ t.run = .running) ∧
    (∃ t, step (machine 255#8 (regs 0#8 0#8 0#8) [0x01#8]) = .next t ∧ t.run = .halted) ∧
    (machine 255#8 (regs 0#8 0#8 0#8) [0x01#8]).mem.read 255 = opcodeByte .hlt :=
  ⟨⟨_, rfl, rfl⟩, ⟨_, rfl, rfl⟩, ⟨_, rfl, rfl⟩, ⟨_, rfl, rfl⟩, ⟨_, rfl, rfl⟩, ⟨_, rfl, rfl⟩, rfl⟩

/-- A step that keeps the flags and one that writes them. -/
theorem witness_FlagsAreNeverRead :
    (∃ t, step addAtEnd = .next t ∧ t.flags = addAtEnd.flags) ∧
    (∃ t, step (machine 0#8 (regs 5#8 10#8 0#8) [0xA7#8, 0x00#8, 0x01#8]) = .next t ∧ t.flags = ⟨false, true, false⟩) :=
  ⟨⟨_, rfl, rfl⟩, ⟨_, rfl, rfl⟩⟩
theorem witness_FaultRecordIsNeverRead : addAtEnd.run = .running := rfl
theorem witness_OutputIsWriteOnly :
    ∃ t, step (machine 0#8 (regs 72#8 0#8 0#8) [0x47#8, 0x00#8]) = .next t ∧ t.out = [72#8] := ⟨_, rfl, rfl⟩

/-- A fault before the writes (V-DIV-5) and the one after them (V-LDI-5). -/
theorem witness_FaultsArePrecise :
    (checkBeforeWrites (machine 0#8 (regs 5#8 0#8 0#8) [0xA3#8, 0x00#8, 0x01#8]) = some (.divisionByZero 1) ∧
      ∃ t, step (machine 0#8 (regs 5#8 0#8 0#8) [0xA3#8, 0x00#8, 0x01#8]) = .next t ∧ t.run = .faulted) ∧
    (checkBeforeWrites (machine 253#8 (regs 0#8 0#8 0#8) [0x82#8, 0x00#8, 0x05#8]) = none ∧
      ∃ t, step (machine 253#8 (regs 0#8 0#8 0#8) [0x82#8, 0x00#8, 0x05#8]) = .next t ∧ t.run = .faulted ∧ t.regs.r0 = 5#8) ∧
    (machine 253#8 (regs 0#8 0#8 0#8) [0x82#8, 0x00#8, 0x05#8]).run = .running :=
  ⟨⟨by decide, _, rfl, rfl⟩, ⟨by decide, _, rfl, rfl, rfl⟩, rfl⟩

/-- A RUNNING state for each row of 60 R132, and one that fails no check. -/
theorem witness_FirstFailedCheckIsReported :
    firstFailedCheck (machine 252#8 (regs 0#8 0#8 0#8) [0xA0#8, 0x00#8, 0x07#8]) = none ∧
    firstFailedCheck (lastByte 255#8 0xFF#8) = some (.unknownInstruction 0xFF#8) ∧
    firstFailedCheck (lastByte 255#8 0x47#8) = some (.invalidAddress 256) ∧
    firstFailedCheck (machine 254#8 (regs 0#8 0#8 0#8) [0xA0#8, 0x09#8]) = some (.invalidAddress 256) ∧
    firstFailedCheck (machine 254#8 (regs 0#8 0#8 0#8) [0x50#8, 0x08#8]) = some (.invalidRegister 8#8) ∧
    firstFailedCheck (machine 253#8 (regs 0#8 0#8 0#8) [0xA3#8, 0x00#8, 0x08#8]) = some (.invalidRegister 8#8) ∧
    firstFailedCheck (machine 254#8 (regs 0#8 0#8 0#8) [0x50#8, 0x07#8]) = some (.invalidAddress 256) ∧
    firstFailedCheck (machine 254#8 (regs 0#8 0#8 0#8) [0x46#8, 0x00#8]) = some (.stackUnderflow 0xF4#8) ∧
    firstFailedCheck (machine 253#8 (regs 0#8 0#8 0#8) [0xA3#8, 0x00#8, 0x01#8]) = some (.divisionByZero 1) ∧
    firstFailedCheck (machine 253#8 (regs 0#8 1#8 0#8) [0xA3#8, 0x00#8, 0x01#8]) = some (.invalidAddress 256) ∧
    (lastByte 255#8 0xFF#8).run = .running := by decide

theorem witness_UnsupportedOperationIsUnreachable :
    (7#8).toNat < 8 ∧ (0b101#3 = 0b100#3 ∨ 0b101#3 = 0b101#3 ∨ 0b101#3 = 0b110#3) ∧ addAtEnd.run = .running ∧
      ∃ t, exec (.div 0#8 2#8) addAtEnd = .next t ∧ t.run = .faulted :=
  ⟨by decide, by decide, rfl, _, rfl, rfl⟩

/-- The invariant holds of a RUNNING machine, of one HALTED at a HLT and of one FAULTED at address 0, and they step. -/
theorem witness_StepKeepsInvariant :
    (Inv addAtEnd ∧ ∃ t, step addAtEnd = .next t) ∧
    Inv { machine 255#8 (regs 0#8 0#8 0#8) [0x01#8] with run := .halted } ∧
    Inv { State.reset with run := .faulted, fault := ⟨5#3, 0#8, 0#8, 0#9⟩ } := by
  refine ⟨⟨⟨by decide, by unfold FlagsExclusive; decide, by decide, by decide, ?_⟩, _, rfl⟩,
    ⟨by decide, by unfold FlagsExclusive; decide, fun _ => rfl, by decide, ?_⟩,
    ⟨by decide, by unfold FlagsExclusive; decide, by decide, fun _ => rfl, fun _ => ?_⟩⟩
  · intro h; exact absurd h (by decide)
  · intro h; exact absurd h (by decide)
  · exact .inr (.inr (.inr (.inr ⟨rfl, rfl⟩)))

theorem witness_LdiThenPrnEmitsImmediate : (7#8).toNat < 8 ∧ (machine 250#8 (regs 0#8 0#8 0#8) []).pc.toNat ≤ 250 := by decide
/-- R7, which is 0xF4, for the clause of a register that is not 0, and R3 for the clause of one that is. -/
theorem witness_AluOnOneRegister :
    (7#8).toNat < 8 ∧ (machine 252#8 (regs 0#8 0#8 0#8) []).pc.toNat ≤ 252 ∧
      ((machine 252#8 (regs 0#8 0#8 0#8) []).getReg 7).toNat ≠ 0 ∧ ((machine 252#8 (regs 0#8 0#8 0#8) []).getReg 3).toNat = 0 := by
  decide
theorem witness_PushesLowerStackPointer :
    (∀ r ∈ [0#8, 7#8, 1#8], r.toNat < 8) ∧ (machine 249#8 (regs 0#8 0#8 0#8 0x01#8) []).pc.toNat + 2 * 3 ≤ 255 := by decide

/-- SP at the four ends of the two ranges, and a later state that leaves SP and the pushed byte alone. -/
theorem witness_PushPopRoundTrip :
    (∀ sp ∈ [0x01#8, 0xF4#8], 1 ≤ (machine 253#8 (regs 0#8 0#8 0#8 sp) []).sp.toNat ∧
      (machine 253#8 (regs 0#8 0#8 0#8 sp) []).sp.toNat ≤ 0xF4) ∧
    (∀ sp ∈ [0x00#8, 0xF5#8, 0xFF#8], (machine 253#8 (regs 0#8 0#8 0#8 sp) []).sp.toNat = 0 ∨
      0xF5 ≤ (machine 253#8 (regs 0#8 0#8 0#8 sp) []).sp.toNat) ∧
    ∃ t u, exec (.push 7#8) (machine 253#8 (regs 0#8 0#8 0#8) []) = .next t ∧ u ≠ t ∧ u.sp = t.sp ∧
      u.mem.read u.sp.toNat = t.mem.read t.sp.toNat ∧ u.pc.toNat ≤ 253 :=
  ⟨by decide, by decide, _, { machine 0#8 (regs 1#8 2#8 3#8 0xF3#8) [] with mem := ⟨[(0xF3, 0xF3#8)]⟩ }, rfl, by decide, rfl, rfl,
    by decide⟩

theorem witness_CallRetReturns :
    1 ≤ (machine 253#8 (regs 0#8 0#8 0#8 0x01#8) []).sp.toNat ∧ (machine 253#8 (regs 0#8 0#8 0#8) []).sp.toNat ≤ 0xF4 ∧
    (machine 253#8 (regs 0#8 0#8 0#8) []).pc.toNat ≤ 253 ∧
    ∃ t u, exec (.call 7#8) (machine 253#8 (regs 0#8 0#8 0#8) []) = .next t ∧ u ≠ t ∧ u.sp = t.sp ∧
      u.mem.read u.sp.toNat = t.mem.read t.sp.toNat :=
  ⟨by decide, by decide, by decide, _, { machine 0#8 (regs 1#8 2#8 3#8 0xF3#8) [] with mem := ⟨[(0xF3, 0xFF#8)]⟩ }, rfl, by decide,
    rfl, rfl⟩

/-- A PUSH at SP 0 stores at 255; a later state fetches that address as an opcode, others as a first and a second operand. -/
theorem witness_StoredByteIsFetched :
    (7#8).toNat < 8 ∧ (machine 253#8 (regs 0#8 0#8 0#8 0x00#8) []).pc.toNat ≤ 253 ∧
    (∃ t u : State, exec (.push 7#8) (machine 253#8 (regs 0#8 0#8 0#8 0x00#8) []) = .next t ∧ u ≠ t ∧
      u.mem.read (spDec 0x00#8).toNat = t.mem.read (spDec 0x00#8).toNat ∧ u.pc = spDec 0x00#8) ∧
    (machine 254#8 (regs 0#8 0#8 0#8) []).pc.toNat + 1 = (spDec 0x00#8).toNat ∧
    (machine 253#8 (regs 0#8 0#8 0#8) []).pc.toNat + 2 = (spDec 0x00#8).toNat :=
  ⟨by decide, by decide, ⟨_, { State.reset with pc := 0xFF#8, mem := ⟨[(255, 255#8)]⟩ }, rfl, by decide, by decide, rfl⟩,
    by decide, by decide⟩

/-- JMP R2 at 254 with R2 = 254. -/
theorem witness_JmpToItselfNeverEnds :
    let s := machine 254#8 (regs 0#8 0#8 254#8) [0x54#8, 0x02#8]
    ∃ h : (s.mem.read (s.pc.toNat + 1)).toNat < 8, s.run = .running ∧ s.pc.toNat ≤ 254 ∧ s.mem.read s.pc.toNat = 0x54#8 ∧
      s.regs.get ⟨(s.mem.read (s.pc.toNat + 1)).toNat, h⟩ = s.pc := ⟨by decide, rfl, by decide, rfl, rfl⟩

theorem witness_LoadedProgramStarts :
    (encode (.ldi 0#8 8#8) ++ List.replicate 253 0x01#8).length ≤ 256 ∧ 256 < (List.replicate 257 0x01#8).length := by
  rw [List.length_append, List.length_replicate, List.length_replicate]
  decide

theorem witness_AssemblyTextRoundTrips : (Instr.add 7#8 0#8).wellFormed = true ∧ (Instr.ldi 0#8 255#8).wellFormed = true := by
  decide

end Sys2Proof.Tests
end

section
/-! Decoding and encoding for any opcode map (30_encoding.md R57, R59, R63). -/

namespace Sys2Proof

/-- `nops` is bits [7:6] of the opcode byte (R57). -/
theorem opcodeNops_toNat (ir : Byte) : (opcodeNops ir).toNat = ir.toNat / 64 := by
  simp only [opcodeNops, BitVec.extractLsb'_toNat, Nat.shiftRight_eq_div_pow]
  omega

theorem Op.mem_all (m : Op) : m ∈ Op.all := by cases m <;> decide

/-- A map of OPCODE_BYTE with distinct bytes decodes the byte of every instruction that is present. -/
theorem decodeOpcodeWith_self {byte : Op → Byte} (hinj : ∀ m n, byte m = byte n → m = n) {divPresent : Bool} {m : Op}
    (hpresent : divPresent = true ∨ m ≠ .div) : decodeOpcodeWith byte divPresent (byte m) = some m := by
  cases hop : decodeOpcodeWith byte divPresent (byte m) with
  | none => simpa [hpresent] using List.find?_eq_none.mp hop m (Op.mem_all m)
  | some n => rw [hinj n m (decodeOpcodeWith_some hop).1]

/-- With DIV absent no instruction has DIV's byte (R63). -/
theorem decodeOpcodeWith_div_absent {byte : Op → Byte} (hinj : ∀ m n, byte m = byte n → m = n) :
    decodeOpcodeWith byte false (byte .div) = none := by
  refine Option.eq_none_iff_forall_ne_some.mpr fun m hop => ?_
  obtain ⟨hbyte, hpresent⟩ := decodeOpcodeWith_some hop
  simp [hinj m .div hbyte] at hpresent

/-- An instruction is what its mnemonic makes of the operands taken from its operand bytes, and the bytes after them stay. -/
theorem takeOperands_operandBytes (i : Instr) (rest : List Byte) :
    ∃ a b, takeOperands (operandCount i.op) (operandBytes i ++ rest) = some (a, b, rest) ∧ assemble i.op a b = i := by
  cases i <;> exact ⟨_, _, rfl, rfl⟩

/-- An opcode byte that selects the instruction's mnemonic, with its operand count in bits [7:6], decodes to it. -/
theorem decodeWith_encodeWith {byte : Op → Byte} {divPresent : Bool} {i : Instr}
    (hop : decodeOpcodeWith byte divPresent (byte i.op) = some i.op) (hcount : (byte i.op).toNat / 64 = operandCount i.op)
    (rest : List Byte) : decodeWith byte divPresent (encodeWith byte i ++ rest) = .ok (i, rest) := by
  obtain ⟨a, b, htake, hmake⟩ := takeOperands_operandBytes i rest
  simp [decodeWith, encodeWith, hop, opcodeNops_toNat, hcount, htake, hmake]

/-- An opcode byte that selects no mnemonic is an unknown instruction (R66). -/
theorem decodeWith_cons_unknown {byte : Op → Byte} {divPresent : Bool} {ir : Byte}
    (hop : decodeOpcodeWith byte divPresent ir = none) (rest : List Byte) :
    decodeWith byte divPresent (ir :: rest) = .error (.unknownInstruction ir) := by
  simp [decodeWith, hop]

/-- Settles O6: distinct bytes select each instruction that is present, and bits [7:6] take its own operand bytes. -/
theorem anyOpcodeMapRoundTrips : Obligations.AnyOpcodeMapRoundTrips := by
  intro byte divPresent hinj hcount i rest
  refine ⟨fun hpresent => ?_, fun habsent hdiv => ?_⟩
  · exact decodeWith_encodeWith (decodeOpcodeWith_self hinj hpresent) (hcount i.op) rest
  · subst habsent
    rw [encodeWith, hdiv, List.cons_append]
    exact decodeWith_cons_unknown (decodeOpcodeWith_div_absent hinj) _

end Sys2Proof
end

section
/-! What an instruction and a step read of the state and what they can do to it, said once. An effect is computed from
registers, `pc` and memory alone; the flags, the run state, the fault record and the output are only written (10_state.md R27,
R31, R33). -/

namespace Sys2Proof.Machine

open Sys2Proof Sys2Proof.Safety

/-- How an instruction leaves the run state: as it was, HALTED, or FAULTED with a record. -/
inductive Ending where
  | goesOn
  | halts
  | faults (r : FaultRecord)

/-- The run state after an ending, from the one before. -/
def Ending.run (before : RunState) : Ending → RunState
  | .goesOn => before
  | .halts => .halted
  | .faults _ => .faulted

/-- The fault record after an ending, from the one before. -/
def Ending.record (before : FaultRecord) : Ending → FaultRecord
  | .goesOn | .halts => before
  | .faults r => r

/-- What an instruction does to any state it runs in: the registers, `pc` and memory it leaves, the flags it writes and the
byte it emits if any, and how it ends. -/
structure Effect where
  regs : RegFile
  pc : Byte
  mem : Memory
  flags : Option Flags := none
  emitted : Option Byte := none
  ending : Ending := .goesOn

/-- The state an effect leaves. -/
def Effect.apply (e : Effect) (s : State) : State where
  regs := e.regs
  pc := e.pc
  flags := e.flags.getD s.flags
  run := e.ending.run s.run
  fault := e.ending.record s.fault
  out := e.emitted.elim s.out fun v => s.out ++ [v]
  mem := e.mem

/-- The effect that leaves registers, `pc` and memory as they are in `u` and writes nothing else. -/
def Effect.leaving (u : State) : Effect := { regs := u.regs, pc := u.pc, mem := u.mem }

/-- The effect of `raise` in `s`. -/
def Effect.raised (s : State) (c : FaultCause) (ir : Byte) : Effect :=
  { Effect.leaving s with ending := .faults ⟨c.kind.code, s.pc, ir, c.info⟩ }

/-- The effect of the ALU's write-back in `s` (42_alu.md R96). -/
def Effect.writeBack (s : State) (ra : RegIndex) (o : AluOut) : Effect :=
  { Effect.leaving (s.aluWriteBack ra o) with flags := if o.flagsWe then some o.flags else none }

/-- What the effect of an instruction with mnemonic `m` in `s` can be (10_state.md R23, R26, R29, R33). -/
structure Effect.Of (m : Op) (s : State) (e : Effect) : Prop where
  keepsFlags : m ≠ .cmp → e.flags = none
  emits : m ≠ .prn → e.emitted = none
  halts : e.ending = .halts → m = .hlt ∧ e = { Effect.leaving s with ending := .halts }
  advances : advances m = true → e.ending = .goesOn → e.pc.toNat = s.pc.toNat + operandCount m + 1

/-- A fault raised before the first write is an effect any instruction can have. -/
theorem Effect.raised_of (m : Op) (s : State) (c : FaultCause) (ir : Byte) : (Effect.raised s c ir).Of m s where
  keepsFlags _ := rfl
  emits _ := rfl
  halts := nofun
  advances _ := nofun

/-! ### States in which an instruction reads the same -/

/-- Two states with the same registers, `pc` and memory. -/
def SameReads (s s' : State) : Prop := s'.regs = s.regs ∧ s'.pc = s.pc ∧ s'.mem = s.mem

section SameReads
variable {s s' : State}

theorem SameReads.refl (s : State) : SameReads s s := ⟨rfl, rfl, rfl⟩

/-- What two functions of the state do in every state that reads like `s` is told by the states that `s` becomes with other
flags, another run state, another fault record and another output. -/
theorem forall_sameReads {α : Type} {F G : State → α}
    (h : ∀ f r k o, F { s with flags := f, run := r, fault := k, out := o } =
      G { s with flags := f, run := r, fault := k, out := o }) :
    ∀ s', SameReads s s' → F s' = G s' := by
  rintro ⟨⟩ ⟨rfl, rfl, rfl⟩
  exact h _ _ _ _

theorem SameReads.getReg_eq (h : SameReads s s') (i : RegIndex) : s'.getReg i = s.getReg i := by
  rw [State.getReg, h.1, State.getReg]

theorem SameReads.checkUnderflow_eq : ∀ s', SameReads s s' → checkUnderflow s' = checkUnderflow s :=
  forall_sameReads fun _ _ _ _ => rfl

theorem SameReads.returnAddress_eq : ∀ s', SameReads s s' → returnAddress s' = returnAddress s :=
  forall_sameReads fun _ _ _ _ => rfl

theorem SameReads.fetch_eq : ∀ s', SameReads s s' → fetch s' = fetch s :=
  forall_sameReads fun _ _ _ _ => rfl

theorem SameReads.raise_eq (c : FaultCause) (ir : Byte) :
    ∀ s', SameReads s s' → s'.raise c ir = (Effect.raised s c ir).apply s' :=
  forall_sameReads fun _ _ _ _ => rfl

theorem SameReads.aluWriteBack_eq (ra : RegIndex) (o : AluOut) :
    ∀ s', SameReads s s' → s'.aluWriteBack ra o = (Effect.writeBack s ra o).apply s' := by
  obtain ⟨result, resultWe, flagsWe, flags, err⟩ := o
  cases flagsWe <;> exact forall_sameReads fun _ _ _ _ => rfl

end SameReads

/-! ### Checks, then an effect -/

/-- An effect that waits for its checks: in every state that reads like `s` the same check fails, or the same effect of an
instruction `m` takes place. -/
def CheckedEffect (m : Op) (s : State) (E : State → Except FaultCause State) : Prop :=
  (∃ c, ∀ s', SameReads s s' → E s' = .error c) ∨
  (∃ e : Effect, e.Of m s ∧ ∀ s', SameReads s s' → E s' = .ok (e.apply s'))

/-- A check that reads only what `SameReads` keeps may go first. -/
theorem CheckedEffect.bind {m : Op} {s : State} {α : Type} {x : State → Except FaultCause α}
    {K : State → α → Except FaultCause State} (hx : ∀ s', SameReads s s' → x s' = x s)
    (hK : ∀ a, CheckedEffect m s fun s' => K s' a) : CheckedEffect m s fun s' => x s' >>= K s' := by
  cases hs : x s with
  | error c => exact .inl ⟨c, fun s' h => by simp only [hx s' h, hs, except_error_bind]⟩
  | ok a =>
    rcases hK a with ⟨c, hc⟩ | ⟨e, he, hF⟩
    · exact .inl ⟨c, fun s' h => by simp only [hx s' h, hs, except_ok_bind, hc s' h]⟩
    · exact .inr ⟨e, he, fun s' h => by simp only [hx s' h, hs, except_ok_bind, hF s' h]⟩

/-- The check of a register operand reads no state. -/
theorem CheckedEffect.regIndex {m : Op} {s : State} (r : Byte) {K : State → RegIndex → Except FaultCause State}
    (hK : ∀ i, CheckedEffect m s fun s' => K s' i) : CheckedEffect m s fun s' => regIndex r >>= K s' :=
  .bind (fun _ _ => rfl) hK

/-- An effect with no check before it. -/
theorem CheckedEffect.done {m : Op} {s : State} {F : State → State} (e : Effect) (he : e.Of m s)
    (hF : ∀ s', SameReads s s' → F s' = e.apply s') : CheckedEffect m s fun s' => pure (F s') :=
  .inr ⟨e, he, fun s' h => congrArg Except.ok (hF s' h)⟩

/-- A jump (40_fetch_execute.md R79): registers, `pc` and memory written, nothing else. -/
theorem CheckedEffect.jump {m : Op} {s : State} {F : State → State} (hm : advances m = false)
    (hF : ∀ s', SameReads s s' → F s' = (Effect.leaving (F s)).apply s') : CheckedEffect m s fun s' => pure (F s') :=
  .done (Effect.leaving (F s)) ⟨fun _ => rfl, fun _ => rfl, nofun, fun h => by simp [hm] at h⟩ hF

/-- An effect that leaves `pc`, then the sequential advance: it moves `pc` past the instruction, or faults with the effect in
place (40_fetch_execute.md R78). -/
theorem CheckedEffect.advance {m : Op} {s : State} {F : State → State} (e : Effect) (hpc : e.pc = s.pc)
    (hend : e.ending = .goesOn) (hflags : m ≠ .cmp → e.flags = none) (hemits : m ≠ .prn → e.emitted = none)
    (hF : ∀ s', SameReads s s' → F s' = e.apply s') :
    CheckedEffect m s fun s' => pure ((F s').advance (opcodeByte m)) := by
  rcases Nat.lt_or_ge (e.pc.toNat + (opcodeLen (opcodeByte m)).toNat) 256 with hlt | hge
  · refine .done { e with pc := BitVec.ofNat 8 (e.pc.toNat + (opcodeLen (opcodeByte m)).toNat) }
      ⟨hflags, hemits, fun h => by simp [hend] at h, fun _ _ => ?_⟩ fun s' h => ?_
    · rw [BitVec.toNat_ofNat, Nat.mod_eq_of_lt hlt, opcodeLen_opcodeByte, hpc, Nat.add_assoc]
    · rw [hF s' h]
      exact advance_ok hlt
  · refine .done
      { e with ending := .faults (State.raise (e.apply s) (.invalidAddress (e.pc.toNat + (opcodeLen (opcodeByte m)).toNat))
          (opcodeByte m)).fault }
      ⟨hflags, hemits, nofun, fun _ => nofun⟩ fun s' h => ?_
    rw [hF s' h]
    exact advance_fault hge

/-- The usual effect of an instruction that advances: registers and memory written, nothing else. -/
theorem CheckedEffect.write {m : Op} {s : State} {F : State → State} (hpc : (F s).pc = s.pc)
    (hF : ∀ s', SameReads s s' → F s' = (Effect.leaving (F s)).apply s') :
    CheckedEffect m s fun s' => pure ((F s').advance (opcodeByte m)) :=
  .advance (Effect.leaving (F s)) hpc rfl (fun _ => rfl) (fun _ => rfl) hF

/-- `checked` raises the failing check on the state before the instruction, so it too has one effect. -/
theorem CheckedEffect.outcome {m : Op} {s : State} {E : State → Except FaultCause State} (h : CheckedEffect m s E)
    (ir : Byte) : ∃ e : Effect, e.Of m s ∧ ∀ s', SameReads s s' →
      (.next (checked s' ir (E s')) : Host.Outcome State Fault Refusal) = .next (e.apply s') := by
  rcases h with ⟨c, hc⟩ | ⟨e, he, hF⟩
  · exact ⟨.raised s c ir, Effect.raised_of m s c ir, fun s' h => by rw [hc s' h, checked_error, h.raise_eq]⟩
  · exact ⟨e, he, fun s' h => by rw [hF s' h, checked_ok]⟩

/-! ### Instructions and steps -/

/-- Only the operation of CMP has `flags_we` (42_alu.md R95). -/
theorem alu8bit_flagsWe {op : BitVec 3} (hop : op ≠ 0b111#3) (x y : Byte) : (alu8bit op x y).flagsWe = false := by
  unfold alu8bit
  split_ifs <;> rfl

/-- The five ALU instructions: the checks of 42_alu.md R96, then one register or the flags written, then the advance. -/
theorem aluFrame_effect {m : Op} {op : BitVec 3} (hcmp : m ≠ .cmp → op ≠ 0b111#3) (a b : Byte) (s : State) :
    ∃ e : Effect, e.Of m s ∧ ∀ s', SameReads s s' →
      (.next (aluFrame op (opcodeByte m) a b s') : Host.Outcome State Fault Refusal) = .next (e.apply s') := by
  refine (CheckedEffect.regIndex a fun ra => .regIndex b fun rb =>
    .bind (x := fun s' => aluCheck op rb (alu8bit op (s'.getReg ra) (s'.getReg rb))) (fun s' h => ?_) fun _ => ?_).outcome _
  · rw [h.getReg_eq, h.getReg_eq]
  · refine .advance (Effect.writeBack s ra (alu8bit op (s.getReg ra) (s.getReg rb))) rfl rfl (fun hm => ?_) (fun _ => rfl)
      fun s' h => ?_
    · simp [Effect.writeBack, alu8bit_flagsWe (hcmp hm)]
    · rw [h.getReg_eq, h.getReg_eq, h.aluWriteBack_eq]

/-- An instruction reads registers, `pc` and memory alone: in every state that reads like `s` it has one and the same
effect. -/
theorem exec_effect (i : Instr) (s : State) :
    ∃ e : Effect, e.Of i.op s ∧ ∀ s', SameReads s s' → exec i s' = .next (e.apply s') := by
  cases i with
  | hlt =>
    exact ⟨{ Effect.leaving s with ending := .halts }, ⟨fun _ => rfl, fun _ => rfl, fun _ => ⟨rfl, rfl⟩, nofun⟩,
      forall_sameReads fun _ _ _ _ => rfl⟩
  | ldi r imm =>
    exact (CheckedEffect.regIndex r fun j => .write (m := .ldi) rfl (forall_sameReads fun _ _ _ _ => rfl)).outcome _
  | prn r =>
    exact (CheckedEffect.regIndex r fun j => .advance (m := .prn) (F := fun s' => s'.emit (s'.getReg j))
      { Effect.leaving s with emitted := some (s.getReg j) } rfl rfl (fun _ => rfl) (absurd rfl)
      (forall_sameReads fun _ _ _ _ => rfl)).outcome _
  | add a b => exact aluFrame_effect (fun _ => by decide) a b s
  | sub a b => exact aluFrame_effect (fun _ => by decide) a b s
  | mul a b => exact aluFrame_effect (fun _ => by decide) a b s
  | div a b => exact aluFrame_effect (fun _ => by decide) a b s
  | cmp a b => exact aluFrame_effect (absurd rfl) a b s
  | push r =>
    exact (CheckedEffect.regIndex r fun j => .write (m := .push) rfl (forall_sameReads fun _ _ _ _ => rfl)).outcome _
  | pop r =>
    exact (CheckedEffect.regIndex r fun j => .bind SameReads.checkUnderflow_eq fun _ =>
      .write (m := .pop) rfl (forall_sameReads fun _ _ _ _ => rfl)).outcome _
  | call r =>
    exact (CheckedEffect.regIndex r fun j => .bind SameReads.returnAddress_eq fun ret =>
      .jump rfl (forall_sameReads fun _ _ _ _ => rfl)).outcome _
  | ret =>
    exact (CheckedEffect.bind SameReads.checkUnderflow_eq fun _ =>
      .jump rfl (forall_sameReads fun _ _ _ _ => rfl)).outcome _
  | jmp r =>
    exact (CheckedEffect.regIndex r fun j => .jump rfl (forall_sameReads fun _ _ _ _ => rfl)).outcome _

/-- A fetched instruction has the opcode byte at `pc`. -/
theorem opcode_of_fetch {s : State} {i : Instr} (h : fetch s = .ok i) : s.mem.read s.pc.toNat = opcodeByte i.op := by
  rcases fetch_cases s with ⟨-, e⟩ | ⟨m, -, -, e⟩ | ⟨m, hm, -, e⟩
  · cases e.symm.trans h
  · cases e.symm.trans h
  · cases e.symm.trans h
    rw [assemble_op, decodeOpcode_some hm]

/-- What a RUNNING machine's step does: a fetch that fails raises its fault, and otherwise the effect is that of an
instruction with the opcode byte at `pc`. It is one and the same in every RUNNING state that reads like `s`. -/
theorem step_effect (s : State) :
    ∃ e : Effect, ((∃ c ir, e = .raised s c ir) ∨ ∃ m, s.mem.read s.pc.toNat = opcodeByte m ∧ e.Of m s) ∧
      ∀ s', SameReads s s' → s'.run = .running → step s' = .next (e.apply s') := by
  cases hf : fetch s with
  | error c =>
    refine ⟨.raised s c (s.mem.read s.pc.toNat), .inl ⟨c, _, rfl⟩, fun s' h hr' => ?_⟩
    rw [step_fetchFault hr' ((h.fetch_eq).trans hf), h.raise_eq, h.2.1, h.2.2]
  | ok i =>
    obtain ⟨e, he, hF⟩ := exec_effect i s
    refine ⟨e, .inr ⟨i.op, opcode_of_fetch hf, he⟩, fun s' h hr' => ?_⟩
    rw [step_fetched hr' ((h.fetch_eq).trans hf), hF s' h]

/-- The step of a RUNNING machine that answered `t`, as the effect that led to `t`. -/
theorem step_effect_eq {s t : State} (hr : s.run = .running) (h : step s = .next t) :
    ∃ e : Effect, ((∃ c ir, e = .raised s c ir) ∨ ∃ m, s.mem.read s.pc.toNat = opcodeByte m ∧ e.Of m s) ∧
      t = e.apply s ∧ ∀ s', SameReads s s' → s'.run = .running → step s' = .next (e.apply s') := by
  obtain ⟨e, he, hF⟩ := step_effect s
  rw [hF s (.refl s) hr] at h
  cases h
  exact ⟨e, he, rfl, hF⟩

/-- A step of a machine that is not RUNNING answered the same state (10_state.md R30). -/
theorem step_terminal_eq {s t : State} (hr : s.run ≠ .running) (h : step s = .next t) : t = s := by
  rw [step_terminal hr] at h
  cases h
  rfl

/-- A RUNNING machine at an opcode byte raises a fetch fault or executes the instruction with the operands that follow. -/
theorem step_of_opcodeByte {s : State} {m : Op} (hr : s.run = .running) (hm : s.mem.read s.pc.toNat = opcodeByte m) :
    (∃ c ir, step s = .next (s.raise c ir)) ∨ step s = exec (assemble m (operandA s m) (operandB s m)) s := by
  have hdec : decodeOpcode (s.mem.read s.pc.toNat) = some m := by rw [hm, decodeOpcode_opcodeByte]
  rcases Nat.lt_or_ge (s.pc.toNat + operandCount m) 256 with hpc | hpc
  · exact .inr (step_fetched hr (fetch_ok hdec hpc))
  · exact .inl ⟨_, _, step_fetchFault hr (fetch_truncated hdec hpc)⟩

theorem Ending.eq_halts {d : Ending} (h : d.run .running = .halted) : d = .halts := by
  cases d with
  | halts => rfl
  | goesOn | faults => cases h

theorem Ending.eq_goesOn {d : Ending} {before : RunState} (h : d.run before = .running) : d = .goesOn := by
  cases d with
  | goesOn => rfl
  | halts | faults => cases h

/-- Where an instruction that advances leaves `pc` if it goes on (40_fetch_execute.md R78): the sum does not wrap. -/
theorem exec_pc_of_advances {i : Instr} {s t : State} (hadv : advances i.op = true) (h : exec i s = .next t)
    (hrun : t.run = .running) : t.pc.toNat = s.pc.toNat + operandCount i.op + 1 := by
  obtain ⟨e, he, hF⟩ := exec_effect i s
  cases (hF s (.refl s)).symm.trans h
  exact he.advances hadv (Ending.eq_goesOn hrun)

/-- Where CALL goes: to its register, read after the decrement of SP (44_control.md R115). -/
theorem execCall_pc {r : Byte} {s t : State} (h : exec (.call r) s = .next t) (hrun : t.run = .running) :
    ∃ hr : r.toNat < 8, t.pc = (s.regs.set 7 (spDec s.sp)).get ⟨r.toNat, hr⟩ := by
  rcases execCall_cases s r with ⟨-, e⟩ | ⟨-, -, e⟩ | ⟨hr, -, e⟩ <;> cases e.symm.trans h
  · cases hrun
  · cases hrun
  · exact ⟨hr, by simp⟩

/-- Where RET goes: to the byte at SP (44_control.md R116). -/
theorem execRet_pc {s t : State} (h : exec .ret s = .next t) (hrun : t.run = .running) :
    t.pc = s.mem.read s.sp.toNat := by
  rcases execRet_cases s with ⟨-, e⟩ | ⟨-, e⟩ <;> cases e.symm.trans h
  · cases hrun
  · rfl

/-- Where JMP goes: to its register (44_control.md R117). -/
theorem execJmp_pc {r : Byte} {s t : State} (h : exec (.jmp r) s = .next t) (hrun : t.run = .running) :
    ∃ hr : r.toNat < 8, t.pc = s.regs.get ⟨r.toNat, hr⟩ := by
  rcases execJmp_cases s r with ⟨-, e⟩ | ⟨hr, e⟩ <;> cases e.symm.trans h
  · cases hrun
  · exact ⟨hr, s.getReg_port _⟩

end Sys2Proof.Machine
end

section
/-! The register checks that come first, and what the loader leaves in memory (10_state.md R17, R35). -/

namespace Sys2Proof.Machine

open Sys2Proof

/-- A first register operand above 7 is raised before anything is written, whatever the instruction (60_exceptions.md
R132). -/
theorem exec_firstOperand_invalid {i : Instr} {r : Byte} (hfirst : (registerOperandBytes i).head? = some r)
    (hr : 8 ≤ r.toNat) (s : State) : exec i s = .next (s.raise (.invalidRegister r) i.opcode) := by
  cases i with
  | hlt | ret => cases hfirst
  | add | sub | mul | div | cmp => cases hfirst; exact congrArg _ (aluFrame_badA hr)
  | ldi | prn | push | pop | call | jmp =>
    cases hfirst
    simp only [exec, execLdi, execPrn, execPush, execPop, execCall, execJmp, regIndex_error hr]
    rfl

/-- Loading bytes that fit writes memory alone: they stand from the first address on, and every other byte is as before. -/
theorem loadFrom_ok (bytes : List Byte) : ∀ (a : Nat) (s : State), a + bytes.length ≤ 256 →
    ∃ t, loadFrom a s bytes = .ok t ∧ t = { s with mem := t.mem } ∧
      ∀ x, t.mem.read x = if x < a then s.mem.read x else bytes.getD (x - a) (s.mem.read x) := by
  induction bytes with
  | nil => exact fun a s _ => ⟨s, rfl, rfl, fun x => by simp⟩
  | cons b rest ih =>
    intro a s hlen
    rw [List.length_cons] at hlen
    obtain ⟨t, hload, hframe, hread⟩ := ih (a + 1) { s with mem := s.mem.write a b } (by omega)
    refine ⟨t, by simp only [loadFrom, memWrite_ok b (show a < 256 by omega), hload], hframe, fun x => ?_⟩
    rw [hread]
    rcases Nat.lt_trichotomy x a with hlt | rfl | hgt
    · rw [if_pos (by omega), if_pos hlt, Memory.read_write_other _ _ (by omega)]
    · simp
    · rw [if_neg (by omega), if_neg (by omega), Memory.read_write_other _ _ (by omega),
        show x - a = x - (a + 1) + 1 by omega, List.getD_cons_succ]

end Sys2Proof.Machine
end

section
/-! The statements about the machine's state (10_state.md). -/

namespace Sys2Proof

open Sys2Proof.Machine Sys2Proof.Safety Sys2Proof.Claims

/-- Settles O8: reading after writing a register, and the check of the first register operand. -/
theorem registerWriteStoresModulo256 : Obligations.RegisterWriteStoresModulo256 := by
  refine ⟨fun s i v => ⟨?_, fun j hj => ?_, rfl⟩, fun r b s hr i hi => exec_firstOperand_invalid ?_ hr s⟩
  · simp
  · simp [RegFile.get_set_other _ _ hj]
  · simp only [List.mem_cons, List.not_mem_nil, or_false] at hi
    rcases hi with rfl | rfl | rfl | rfl | rfl | rfl <;> rfl

/-- Settles O17, by induction on the number of steps. -/
theorem terminalStatesAreInert : Obligations.TerminalStatesAreInert := by
  intro n s hs
  induction n with
  | zero => rfl
  | succ n ih => rw [run_succ (step_terminal hs), ih]

/-- Settles O36: the effect of any other instruction writes no flags, and CMP's is its comparison, which the advance
leaves. -/
theorem onlyCmpWritesFlags : Obligations.OnlyCmpWritesFlags := by
  intro i s t h
  refine ⟨fun hcmp => ?_, ?_⟩
  · obtain ⟨e, he, hF⟩ := exec_effect i s
    rw [hF s (.refl s)] at h
    cases h
    have hop : i.op ≠ .cmp := by
      cases i with
      | cmp a b => exact absurd rfl (hcmp a b)
      | _ => exact nofun
    rw [Effect.apply, he.keepsFlags hop, Option.getD_none]
  · rintro a b rfl
    rcases execCmp_cases s a b with ⟨ha, e⟩ | ⟨ha, hb, e⟩ | ⟨ha, hb, e⟩ <;> cases e.symm.trans h
    · exact ⟨fun ok => by omega, fun _ => rfl⟩
    · exact ⟨fun ok => by omega, fun _ => rfl⟩
    · refine ⟨fun _ => ?_, fun bad => by omega⟩
      rw [(advance_frame _ _).2.1, State.driveFlags_write, compareFlags_eq, ExactlyOneFlag]
      split_ifs <;> simp

/-- Settles O37: the effect of any instruction but PRN emits nothing, and an effect emits one byte at most. -/
theorem onlyPrnEmits : Obligations.OnlyPrnEmits := by
  intro s t h
  by_cases hr : s.run = .running
  · obtain ⟨e, he, rfl, -⟩ := step_effect_eq hr h
    rcases he with ⟨c, ir, rfl⟩ | ⟨m, hm, he⟩
    · exact .inl rfl
    · by_cases hprn : m = .prn
      · subst hprn
        cases hv : e.emitted with
        | none => exact .inl (by rw [Effect.apply, hv]; rfl)
        | some v => exact .inr ⟨hm, v, by rw [Effect.apply, hv]; rfl⟩
      · exact .inl (by rw [Effect.apply, he.emits hprn]; rfl)
  · exact .inl (by rw [step_terminal_eq hr h])

/-- Settles O39: of the effects only HLT's halts, and it leaves everything else. -/
theorem onlyHltHalts : Obligations.OnlyHltHalts := by
  intro s t hr h hhalt
  obtain ⟨e, he, rfl, -⟩ := step_effect_eq hr h
  have hend : e.ending = .halts := Ending.eq_halts (hr ▸ hhalt)
  rcases he with ⟨c, ir, rfl⟩ | ⟨m, hm, he⟩
  · cases hend
  · obtain ⟨rfl, heq⟩ := he.halts hend
    exact ⟨hm, by rw [heq]; rfl⟩

/-- Settles O40: the instruction at `pc` goes on, so its checks passed; a sequential one has advanced, and CALL, RET and JMP
have set `pc`. -/
theorem nextProgramCounter : Obligations.NextProgramCounter := by
  intro s t m hr hm h
  rcases step_of_opcodeByte hr hm with ⟨c, ir, e⟩ | e <;> rw [e] at h
  · cases h
    exact ⟨fun _ => rfl, nofun⟩
  · refine ⟨?_, fun hrun => ⟨fun hmem => ?_, fun hmem => ?_, ?_, ?_, ?_⟩⟩
    · rintro rfl
      cases h
      rfl
    · have hops : ∀ n ∈ [Op.ldi, .add, .sub, .mul, .div, .cmp], advances n = true ∧ operandCount n = 2 := by decide
      obtain ⟨hadv, hcount⟩ := hops m hmem
      rw [exec_pc_of_advances (by rw [assemble_op, hadv]) h hrun, assemble_op, hcount]
    · have hops : ∀ n ∈ [Op.prn, .push, .pop], advances n = true ∧ operandCount n = 1 := by decide
      obtain ⟨hadv, hcount⟩ := hops m hmem
      rw [exec_pc_of_advances (by rw [assemble_op, hadv]) h hrun, assemble_op, hcount]
    · rintro rfl
      exact execCall_pc h hrun
    · rintro rfl
      exact execRet_pc h hrun
    · rintro rfl
      exact execJmp_pc h hrun

/-- Settles O41: the step has one effect whatever the flags, and it writes all of them or none. -/
theorem flagsAreNeverRead : Obligations.FlagsAreNeverRead := by
  intro s t f h
  by_cases hr : s.run = .running
  · obtain ⟨e, -, rfl, hF⟩ := step_effect_eq hr h
    refine ⟨_, hF { s with flags := f } ⟨rfl, rfl, rfl⟩ hr, rfl, ?_⟩
    cases hw : e.flags with
    | none => exact .inr (by simp [Effect.apply, hw])
    | some w => exact .inl (by simp [Effect.apply, hw])
  · obtain rfl := step_terminal_eq hr h
    exact ⟨_, step_terminal hr, rfl, .inr ⟨rfl, rfl⟩⟩

/-- Settles O42: the step has one effect whatever the record, and an effect that faults writes the whole record. -/
theorem faultRecordIsNeverRead : Obligations.FaultRecordIsNeverRead := by
  intro s r hr
  obtain ⟨e, -, hF⟩ := step_effect s
  refine ⟨_, _, hF s (.refl s) hr, hF { s with fault := r } ⟨rfl, rfl, rfl⟩ hr, ?_⟩
  cases hend : e.ending <;> simp [State.observe, Effect.apply, Ending.run, Ending.record, hend, hr]

/-- Settles O43: the step has one effect whatever was emitted, and what it emits is appended. -/
theorem outputIsWriteOnly : Obligations.OutputIsWriteOnly := by
  intro s t o h
  by_cases hr : s.run = .running
  · obtain ⟨e, -, rfl, hF⟩ := step_effect_eq hr h
    refine ⟨e.emitted.toList, _, ?_, hF { s with out := o } ⟨rfl, rfl, rfl⟩ hr, ?_⟩ <;>
      cases hv : e.emitted <;> simp [Effect.apply, hv]
  · obtain rfl := step_terminal_eq hr h
    exact ⟨[], _, (List.append_nil _).symm, step_terminal hr, by rw [List.append_nil]⟩

/-- Settles O11: the loader writes the program over memory that reads 0. -/
theorem resetValues : Obligations.ResetValues := by
  refine ⟨rfl, rfl, rfl, rfl, rfl, fun _ => rfl, fun bytes hlen => ?_⟩
  obtain ⟨s, hload, hframe, hread⟩ := loadFrom_ok bytes 0 State.reset (by omega)
  exact ⟨s, hload, hframe, hread⟩

/-- Settles O48: memory is empty, no flag is set, and the machine is RUNNING. -/
theorem resetMeetsInvariant : Obligations.ResetMeetsInvariant where
  memCanonical := reset_mem_wf
  flagsExclusive := ⟨rfl, rfl, rfl⟩
  haltedAtHlt := nofun
  faultedHere := nofun
  faultedInTable := nofun

end Sys2Proof
end

section
/-! What a canonical memory lists, and what is fetched of a byte memory holds (20_memory.md R37, R54). -/

namespace Sys2Proof.Machine

open Sys2Proof Sys2Proof.Claims

/-- Only a listed address reads as a byte that is not 0. -/
theorem mem_of_readCells {a : Nat} {v : Byte} {l : List Host.Cell} (hread : readCells a l = v) (hv : v ≠ 0#8) :
    (a, v) ∈ l := by
  induction l with
  | nil => exact absurd hread.symm hv
  | cons p t ih =>
    obtain ⟨c, w⟩ := p
    by_cases hc : a = c
    · subst hc
      rw [readCells, if_pos rfl] at hread
      exact hread ▸ List.mem_cons_self
    · rw [readCells, if_neg hc] at hread
      exact List.mem_cons_of_mem _ (ih hread)

/-- In a rising list every cell is read at its own address. -/
theorem readCells_of_mem {p : Host.Cell} {l : List Host.Cell} (hrising : l.Pairwise fun p q => p.1 < q.1) (hp : p ∈ l) :
    readCells p.1 l = p.2 := by
  induction hrising with
  | nil => cases hp
  | @cons q t hlt _ ih =>
    rcases List.mem_cons.1 hp with rfl | hp
    · exact if_pos rfl
    · rw [readCells, if_neg (Nat.ne_of_gt (hlt p hp)), ih hp]

/-- A canonical memory lists exactly the bytes that are not 0. -/
theorem Memory.mem_cells_iff {m : Memory} (h : m.wf) (p : Host.Cell) :
    p ∈ m.cells ↔ p.2 ≠ 0#8 ∧ m.read p.1 = p.2 :=
  ⟨fun hp => ⟨(h.2 p hp).2, readCells_of_mem h.1 hp⟩, fun ⟨hv, hread⟩ => mem_of_readCells hread hv⟩

/-- Canonical memories that read alike inside the 256 bytes list the same cells. -/
theorem Memory.cells_subset {m n : Memory} (hm : m.wf) (hn : n.wf) (hread : ∀ a, a ≤ 255 → m.read a = n.read a)
    {p : Host.Cell} (hp : p ∈ m.cells) : p ∈ n.cells := by
  obtain ⟨hv, hmp⟩ := (Memory.mem_cells_iff hm p).1 hp
  exact (Memory.mem_cells_iff hn p).2 ⟨hv, hread p.1 (Nat.le_of_lt_succ (hm.2 p hp).1) ▸ hmp⟩

/-- The order of a canonical list admits one list for a set of cells. -/
theorem cells_eq_of_mem_iff {l k : List Host.Cell} (hl : l.Pairwise fun p q => p.1 < q.1)
    (hk : k.Pairwise fun p q => p.1 < q.1) (h : ∀ p, p ∈ l ↔ p ∈ k) : l = k :=
  have hperm : l.Perm k := (List.perm_ext_iff_of_nodup (hl.imp fun hlt heq => Nat.ne_of_lt hlt (congrArg _ heq))
    (hk.imp fun hlt heq => Nat.ne_of_lt hlt (congrArg _ heq))).2 h
  hperm.eq_of_pairwise (fun _ _ _ _ hlt hgt => absurd hgt (Nat.lt_asymm hlt)) hl hk

/-- The advance leaves memory as the instruction's effect left it. -/
@[simp] theorem advance_mem (s : State) (ir : Byte) : (s.advance ir).mem = s.mem := by
  obtain ⟨-, -, -, hmem⟩ := advance_frame s ir
  exact hmem

/-- Both kinds of fetch read memory and nothing else. -/
theorem fetchedAs_of_read {u : State} {addr v : Byte} (hread : u.mem.read addr.toNat = v) : FetchedAs u addr v := by
  refine ⟨?_, fun nops k _ hk haddr => ?_⟩
  · rintro rfl
    exact hread
  · rw [fetchOperand, if_pos hk, pcPlus, haddr, memRead_ok addr.isLt, hread]

end Sys2Proof.Machine
end

section
/-! What an instruction can do to memory, the flags, the run state and the fault record, said once for all thirteen
(20_memory.md R43, 60_exceptions.md R123, R131). -/

namespace Sys2Proof.Machine

open Sys2Proof Sys2Proof.Safety

/-- An error that 60 R123's table allows while the opcode byte `ir` is in progress. -/
def FaultCause.InTable (ir : Byte) : FaultCause → Prop
  | .invalidAddress addr => addr = 256
  | .invalidRegister r => 8 ≤ r.toNat
  | .divisionByZero _ => True
  | .stackUnderflow sp => 0xF4 ≤ sp.toNat
  | .unknownInstruction b => b = ir
  | .unsupportedOperation _ => False

/-- Raising an error of the table writes a record of the table: the nine bits of `info` hold what every kind records. -/
theorem FaultCause.InTable.record {c : FaultCause} {ir : Byte} (hc : c.InTable ir) (s : State) :
    RecordInTable (s.raise c ir).fault := by
  have widened (b : Byte) : (b.setWidth 9).toNat = b.toNat := BitVec.toNat_setWidth_of_le (by decide)
  cases c with
  | invalidAddress addr => exact .inl ⟨rfl, congrArg (fun n => (BitVec.ofNat 9 n).toNat) hc⟩
  | invalidRegister r =>
    rw [FaultCause.InTable, ← widened] at hc
    exact .inr (.inl ⟨rfl, hc, (widened r).trans_le (Nat.le_of_lt_succ r.isLt)⟩)
  | divisionByZero rb =>
    have hinfo : (BitVec.ofNat 9 rb.val).toNat = rb.val := Nat.mod_eq_of_lt (rb.isLt.trans (by decide))
    exact .inr (.inr (.inl ⟨rfl, hinfo.trans_le (Nat.le_of_lt_succ rb.isLt)⟩))
  | stackUnderflow sp =>
    rw [FaultCause.InTable, ← widened] at hc
    exact .inr (.inr (.inr (.inl ⟨rfl, hc, (widened sp).trans_le (Nat.le_of_lt_succ sp.isLt)⟩)))
  | unknownInstruction b => exact .inr (.inr (.inr (.inr ⟨rfl, (widened b).trans (congrArg BitVec.toNat hc)⟩)))
  | unsupportedOperation => cases hc

/-- What the effect of an instruction with mnemonic `m` that neither faults nor halts can write beside registers, `pc` and
output: the flags of a comparison, or one byte that PUSH or CALL stores at the decremented SP. -/
structure Wrote (m : Op) (s u : State) : Prop where
  run : u.run = s.run
  flags : u.flags = s.flags ∨ ∃ x y, u.flags = compareFlags x y
  mem : u.mem = s.mem ∨ ((m = .push ∨ m = .call) ∧ ∃ v, u.mem = s.mem.write (spDec s.sp).toNat v)

/-- The effect of an instruction that writes registers, `pc` and output alone. -/
theorem Wrote.rest {m : Op} {s u : State} (hrun : u.run = s.run) (hflags : u.flags = s.flags) (hmem : u.mem = s.mem) :
    Wrote m s u := ⟨hrun, .inl hflags, .inl hmem⟩

/-- The ways an instruction can end: an error raised before its first write, HALTED, a jump's effect, or an effect and the
sequential advance. -/
inductive ExecEnds (i : Instr) (s : State) : State → Prop where
  | raises (c : FaultCause) (hc : c.InTable i.opcode) : ExecEnds i s (s.raise c i.opcode)
  | halts (hi : i.op = .hlt) : ExecEnds i s s.halt
  | jumps (u : State) (hw : Wrote i.op s u) : ExecEnds i s u
  | advances (u : State) (hw : Wrote i.op s u) (hpc : u.pc = s.pc) : ExecEnds i s (u.advance i.opcode)

/-- ADD, SUB, MUL and DIV raise one of their checks, or write a register and advance. -/
theorem execAluWrite_ends {i : Instr} (a b : Byte) (s : State)
    (hi : (i.op, i) ∈ [(Op.add, Instr.add a b), (.sub, .sub a b), (.mul, .mul a b), (.div, .div a b)]) :
    ∃ t, exec i s = .next t ∧ ExecEnds i s t := by
  rcases execAluWrite_cases s a b hi with ⟨ha, e⟩ | ⟨-, hb, e⟩ | ⟨_, _, ⟨-, -, e⟩ | ⟨-, e⟩⟩
  · exact ⟨_, e, .raises _ ha⟩
  · exact ⟨_, e, .raises _ hb⟩
  · exact ⟨_, e, .raises _ trivial⟩
  · exact ⟨_, e, .advances _ (.rest rfl rfl rfl) rfl⟩

/-- Every instruction whose bytes all lie in memory ends in one of these ways. -/
theorem exec_ends (i : Instr) (s : State) (hpc : s.pc.toNat + operandCount i.op < 256) :
    ∃ t, exec i s = .next t ∧ ExecEnds i s t := by
  cases i with
  | hlt => exact ⟨_, rfl, .halts rfl⟩
  | ldi r imm =>
    rcases execLdi_cases s r imm with ⟨hr, e⟩ | ⟨_, e⟩
    · exact ⟨_, e, .raises _ hr⟩
    · exact ⟨_, e, .advances _ (.rest rfl rfl rfl) rfl⟩
  | prn r =>
    rcases execPrn_cases s r with ⟨hr, e⟩ | ⟨_, e⟩
    · exact ⟨_, e, .raises _ hr⟩
    · exact ⟨_, e, .advances _ (.rest rfl rfl rfl) rfl⟩
  | add a b => exact execAluWrite_ends a b s (by simp [Instr.op])
  | sub a b => exact execAluWrite_ends a b s (by simp [Instr.op])
  | mul a b => exact execAluWrite_ends a b s (by simp [Instr.op])
  | div a b => exact execAluWrite_ends a b s (by simp [Instr.op])
  | cmp a b =>
    rcases execCmp_cases s a b with ⟨ha, e⟩ | ⟨-, hb, e⟩ | ⟨_, _, e⟩
    · exact ⟨_, e, .raises _ ha⟩
    · exact ⟨_, e, .raises _ hb⟩
    · exact ⟨_, e, .advances _ ⟨rfl, .inr ⟨_, _, rfl⟩, .inl rfl⟩ rfl⟩
  | push r =>
    rcases execPush_cases s r with ⟨hr, e⟩ | ⟨_, e⟩
    · exact ⟨_, e, .raises _ hr⟩
    · exact ⟨_, e, .advances _ ⟨rfl, .inl rfl, .inr ⟨.inl rfl, _, rfl⟩⟩ rfl⟩
  | pop r =>
    rcases execPop_cases s r with ⟨hr, e⟩ | ⟨-, hsp, e⟩ | ⟨_, -, e⟩
    · exact ⟨_, e, .raises _ hr⟩
    · exact ⟨_, e, .raises _ hsp⟩
    · exact ⟨_, e, .advances _ (.rest rfl rfl rfl) rfl⟩
  | call r =>
    rcases execCall_cases s r with ⟨hr, e⟩ | ⟨-, hret, e⟩ | ⟨_, -, e⟩
    · exact ⟨_, e, .raises _ hr⟩
    · have : s.pc.toNat + 1 < 256 := hpc
      exact ⟨_, e, .raises _ (show s.pc.toNat + 2 = 256 by omega)⟩
    · exact ⟨_, e, .jumps _ ⟨rfl, .inl rfl, .inr ⟨.inr rfl, _, rfl⟩⟩⟩
  | ret =>
    rcases execRet_cases s with ⟨hsp, e⟩ | ⟨-, e⟩
    · exact ⟨_, e, .raises _ hsp⟩
    · exact ⟨_, e, .jumps _ (.rest rfl rfl rfl)⟩
  | jmp r =>
    rcases execJmp_cases s r with ⟨hr, e⟩ | ⟨_, e⟩
    · exact ⟨_, e, .raises _ hr⟩
    · exact ⟨_, e, .jumps _ (.rest rfl rfl rfl)⟩

/-- Everything a step can do: nothing in a terminal state, the error of a fetch, or the ending of the instruction at `pc`,
whose bytes all lie in memory. -/
theorem step_ends {s t : State} (h : step s = .next t) :
    t = s ∨ (s.run = .running ∧
      ((∃ c, c.InTable (s.mem.read s.pc.toNat) ∧ t = s.raise c (s.mem.read s.pc.toNat)) ∨
        ∃ i : Instr, s.mem.read s.pc.toNat = i.opcode ∧ s.pc.toNat + operandCount i.op < 256 ∧ ExecEnds i s t)) := by
  rcases step_inversion h with ⟨-, rfl⟩ | ⟨hr, -, rfl⟩ | ⟨hr, m, hm, -, rfl⟩ | ⟨hr, i, hi, hpc, -, hexec⟩
  · exact .inl rfl
  · exact .inr ⟨hr, .inl ⟨.unknownInstruction _, rfl, rfl⟩⟩
  · exact .inr ⟨hr, .inl ⟨.invalidAddress 256, rfl, by rw [hm]⟩⟩
  · obtain ⟨t', hexec', hends⟩ := exec_ends i s hpc
    cases hexec'.symm.trans hexec
    exact .inr ⟨hr, .inr ⟨i, hi, hpc, hends⟩⟩

/-- The only memory write of an instruction is a byte that PUSH or CALL stores at the decremented SP. -/
theorem ExecEnds.mem {i : Instr} {s t : State} (h : ExecEnds i s t) :
    t.mem = s.mem ∨ ((i.op = .push ∨ i.op = .call) ∧ ∃ v, t.mem = s.mem.write (spDec s.sp).toNat v) := by
  cases h with
  | raises | halts => exact .inl rfl
  | jumps _ hw => exact hw.mem
  | advances u hw =>
    rw [advance_mem]
    exact hw.mem

/-- `sp_dec` as R107 gives it. -/
theorem spDec_toNat (sp : Byte) : (spDec sp).toNat = (sp.toNat + 255) % 256 := by
  rw [spDec, BitVec.toNat_sub, Nat.add_comm]
  rfl

/-! ### The invariant -/

/-- CMP sets exactly one flag, so at most one. -/
theorem flagsExclusive_compareFlags (x y : Byte) : FlagsExclusive (compareFlags x y) := by
  rw [compareFlags_eq]
  split_ifs <;> exact ⟨rfl, rfl, rfl⟩

/-- The clauses of the invariant on memory and flags, whatever the run state. -/
structure Sound (s : State) : Prop where
  mem : s.mem.wf
  flags : FlagsExclusive s.flags

/-- The effect of an instruction leaves memory and flags sound. -/
theorem Wrote.sound {m : Op} {s u : State} (hw : Wrote m s u) (hs : Sound s) : Sound u := by
  constructor
  · rcases hw.mem with e | ⟨-, v, e⟩ <;> rw [e]
    · exact hs.mem
    · exact Memory.write_wf hs.mem (spDec s.sp).isLt v
  · rcases hw.flags with e | ⟨x, y, e⟩ <;> rw [e]
    · exact hs.flags
    · exact flagsExclusive_compareFlags x y

/-- A RUNNING machine meets the invariant where memory and flags are sound. -/
theorem Sound.inv_running {s : State} (hs : Sound s) (hr : s.run = .running) : Inv s where
  memCanonical := hs.mem
  flagsExclusive := hs.flags
  haltedAtHlt h := nomatch hr.symm.trans h
  faultedHere h := nomatch hr.symm.trans h
  faultedInTable h := nomatch hr.symm.trans h

/-- Raising an error of the table meets the invariant: the record names the `pc` that stays. -/
theorem Sound.inv_raise {s : State} (hs : Sound s) {c : FaultCause} {ir : Byte} (hc : c.InTable ir) :
    Inv (s.raise c ir) where
  memCanonical := hs.mem
  flagsExclusive := hs.flags
  haltedAtHlt := nofun
  faultedHere _ := rfl
  faultedInTable _ := hc.record s

/-- The advance of an instruction whose bytes all lie in memory goes on, or faults at address 256 exactly. -/
theorem Sound.inv_advance {m : Op} {u : State} (hu : Sound u) (hr : u.run = .running)
    (hpc : u.pc.toNat + operandCount m < 256) : Inv (u.advance (opcodeByte m)) := by
  rcases advance_cases u (opcodeByte m) with ⟨-, e⟩ | ⟨hge, e⟩ <;> rw [e]
  · exact Sound.inv_running ⟨hu.mem, hu.flags⟩ hr
  · rw [opcodeLen_opcodeByte] at hge ⊢
    exact hu.inv_raise (show u.pc.toNat + (operandCount m + 1) = 256 by omega)

/-- However an instruction ends, a RUNNING machine comes to meet the invariant. -/
theorem ExecEnds.inv {i : Instr} {s t : State} (h : ExecEnds i s t) (hs : Sound s) (hr : s.run = .running)
    (hi : s.mem.read s.pc.toNat = i.opcode) (hpc : s.pc.toNat + operandCount i.op < 256) : Inv t := by
  cases h with
  | raises c hc => exact hs.inv_raise hc
  | halts hhlt =>
    refine ⟨hs.mem, hs.flags, fun _ => ?_, nofun, nofun⟩
    rw [State.halt_mem, State.halt_pc, hi, Instr.opcode, hhlt]
    rfl
  | jumps _ hw => exact (hw.sound hs).inv_running (hw.run.trans hr)
  | advances u hw hstay => exact (hw.sound hs).inv_advance (hw.run.trans hr) (hstay ▸ hpc)

end Sys2Proof.Machine
end

section
/-! The statements about memory (20_memory.md). -/

namespace Sys2Proof

open Sys2Proof.Machine Sys2Proof.Safety Sys2Proof.Claims

/-- Settles O47: a step stays in a terminal state, raises a fetch's error, or ends as the instruction at `pc` does, and each
of these meets the invariant. -/
theorem stepKeepsInvariant : Obligations.StepKeepsInvariant := by
  intro s t hinv h
  have hs : Sound s := ⟨hinv.memCanonical, hinv.flagsExclusive⟩
  rcases step_ends h with rfl | ⟨hr, ⟨c, hc, rfl⟩ | ⟨i, hi, hpc, hends⟩⟩
  · exact hinv
  · exact hs.inv_raise hc
  · exact hends.inv hs hr hi hpc

/-- Settles O10: a canonical memory lists exactly the bytes that are not 0, in the one order of their addresses. -/
theorem memoryIsItsBytes : Obligations.MemoryIsItsBytes := by
  intro m n hm hn hread
  have hcells : m.cells = n.cells := cells_eq_of_mem_iff hm.1 hn.1 fun p =>
    ⟨Memory.cells_subset hm hn hread, Memory.cells_subset hn hm fun a ha => (hread a ha).symm⟩
  exact congrArg Memory.mk hcells

/-- Settles O38: of the ways a step can end only the effect of PUSH or CALL writes memory. -/
theorem onlyPushAndCallStore : Obligations.OnlyPushAndCallStore := by
  intro s t h
  rcases step_ends h with rfl | ⟨-, ⟨c, -, rfl⟩ | ⟨i, hi, -, hends⟩⟩
  · exact .inl rfl
  · exact .inl rfl
  · rw [hi, ← spDec_toNat]
    refine hends.mem.imp_right fun ⟨hop, hstore⟩ => ⟨?_, hstore⟩
    exact hop.imp (congrArg opcodeByte) (congrArg opcodeByte)

/-- Settles O54: the byte is stored at the decremented SP, no advance touches it, and a fetch reads memory alone. -/
theorem storedByteIsFetched : Obligations.StoredByteIsFetched := by
  intro r s hr hpc
  constructor
  · rcases execPush_cases s r with ⟨hbad, -⟩ | ⟨_, e⟩
    · omega
    · refine ⟨_, e, fun u hu => fetchedAs_of_read (hu.trans ?_)⟩
      rw [advance_mem, State.store_mem, Memory.read_write_same, State.getReg_eq, State.decSp_regs]
  · rcases execCall_cases s r with ⟨hbad, -⟩ | ⟨-, hbad, -⟩ | ⟨_, -, e⟩
    · omega
    · omega
    · refine ⟨_, e, fun u hu => fetchedAs_of_read (hu.trans ?_)⟩
      rw [State.setPc_mem, State.store_mem, Memory.read_write_same, BitVec.ofNat_add, BitVec.ofNat_toNat, BitVec.setWidth_eq]

/-- Settles O9: the range check decides, and a write is read back from its one cell. -/
theorem memoryAccessIsOneCell : Obligations.MemoryAccessIsOneCell := by
  intro s a v
  refine ⟨fun ha => ?_, fun ha => ⟨memRead_error ha, memWrite_error v ha⟩⟩
  have hlt : a < 256 := Nat.lt_succ_of_le ha
  refine ⟨memRead_ok hlt, _, memWrite_ok v hlt, ?_, fun b hb => Memory.read_write_other _ v hb, rfl⟩
  rw [memRead_ok hlt, Memory.read_write_same]

/-- Settles O59: the address that passes the range check is the port's, and memory answers what the port drives. -/
theorem accessesGoThroughPort : Obligations.AccessesGoThroughPort := by
  intro s a v
  refine ⟨fun ha => ?_, fun ha => ⟨portAddress_error ha, memRead_error ha, memWrite_error v ha⟩⟩
  have hlt : a < 256 := Nat.lt_succ_of_le ha
  have hport : (BitVec.ofNat 8 a).toNat = a := by rw [BitVec.toNat_ofNat, Nat.mod_eq_of_lt hlt]
  refine ⟨BitVec.ofNat 8 a, portAddress_ok hlt, hport, rfl, rfl, rfl, ?_, rfl, rfl, ?_⟩
  · rw [memRead_ok hlt, Memory.rdata_portOfRead, hport]
  · rw [memWrite_ok v hlt, Memory.afterAccess_portOfWrite, hport]

end Sys2Proof
end

section
/-! The decoder accepts the encodings and nothing else, and its outputs for every opcode byte (30_encoding.md R57, R59, R63 to
R66). -/

namespace Sys2Proof

open Sys2Proof.Claims

/-! ### Operands taken from bytes -/

/-- The operands taken are the bytes that stand before the rest. -/
theorem takeOperands_eq_some {n : Nat} {bytes rest : List Byte} {a b : Byte}
    (h : takeOperands n bytes = some (a, b, rest)) : bytes = [a, b].take n ++ rest := by
  unfold takeOperands at h
  split at h <;> simp_all

/-- An instruction's operand bytes are as many of the two its mnemonic was given as it has operands. -/
theorem operandBytes_assemble (m : Op) (a b : Byte) : operandBytes (assemble m a b) = [a, b].take (operandCount m) := by
  cases m <;> rfl

/-- Whatever the opcode map, if bits [7:6] of its bytes are the operand counts, what is decoded is an encoding. -/
theorem eq_encodeWith_of_decodeWith {byte : Op → Byte} {divPresent : Bool}
    (hcount : ∀ m, (byte m).toNat / 64 = operandCount m) {bytes rest : List Byte} {i : Instr}
    (h : decodeWith byte divPresent bytes = .ok (i, rest)) :
    bytes = encodeWith byte i ++ rest := by
  unfold decodeWith at h
  split at h
  · cases h
  · split at h
    · cases h
    · next ir operands _ m hop =>
      split at h
      · cases h
      · next a b left htake =>
        cases h
        obtain ⟨rfl, -⟩ := decodeOpcodeWith_some hop
        rw [opcodeNops_toNat, hcount] at htake
        rw [encodeWith, assemble_op, operandBytes_assemble, List.cons_append, ← takeOperands_eq_some htake]

/-! ### The machine's own opcode map -/

/-- Bits [7:6] of R63's bytes are the operand counts (R68). -/
theorem opcodeByte_div_64 (m : Op) : (opcodeByte m).toNat / 64 = operandCount m := by
  rw [← opcodeNops_toNat, opcodeNops_opcodeByte]

/-- R63's bytes are distinct: each decodes to its own mnemonic. -/
theorem opcodeByte_injective {m n : Op} (h : opcodeByte m = opcodeByte n) : m = n :=
  Option.some.inj <| calc
    some m = decodeOpcode (opcodeByte m) := (decodeOpcode_opcodeByte m).symm
    _ = decodeOpcode (opcodeByte n) := by rw [h]
    _ = some n := decodeOpcode_opcodeByte n

/-- The `op` code is the place in the list of mnemonics (R64). -/
theorem Op.all_getElem?_opCode (m : Op) : Op.all[(opCode m).toNat]? = some m := by
  cases m <;> rfl

theorem opCode_injective {m n : Op} (h : opCode m = opCode n) : m = n :=
  Option.some.inj <| by rw [← Op.all_getElem?_opCode m, h, Op.all_getElem?_opCode n]

/-- A byte outside R63's map decodes to no mnemonic. -/
theorem decodeOpcode_eq_none {ir : Byte} (h : ir ∉ Op.all.map opcodeByte) : decodeOpcode ir = none := by
  refine Option.eq_none_iff_forall_ne_some.mpr fun m hop => h ?_
  rw [decodeOpcode_some hop]
  exact List.mem_map_of_mem (Op.mem_all m)

/-! ### The outputs of instruction_decoder -/

/-- The decoder's table row of a mnemonic (R64). -/
theorem instructionDecoder_opcodeByte (m : Op) : instructionDecoder (opcodeByte m) =
    { valid := true, op := opCode m, nops := opcodeNops (opcodeByte m), len := opcodeLen (opcodeByte m), fmt := fmtCode m,
      isAlu := (aluOpCode m).isSome, aluOp := (aluOpCode m).getD (Config.undrivenAluOp (opcodeByte m)),
      setsPc := setsPc m } := by
  rw [instructionDecoder, decodeOpcode_opcodeByte]

/-- A byte that is no instruction has `valid` = 0 and `op` = 15 (R64). -/
theorem instructionDecoder_unknown {ir : Byte} (h : decodeOpcode ir = none) :
    (instructionDecoder ir).valid = false ∧ (instructionDecoder ir).op = 15#4 := by
  rw [instructionDecoder, h]
  exact ⟨rfl, rfl⟩

theorem decoderRow_opcodeByte (m : Op) :
    DecoderRow (opcodeByte m) (opCode m).toNat (operandCount m) (operandCount m + 1) (fmtCode m).toNat (aluOpCode m)
      (setsPc m) := by
  rw [DecoderRow, instructionDecoder_opcodeByte]
  refine ⟨rfl, rfl, opcodeNops_opcodeByte m, opcodeLen_opcodeByte m, rfl, rfl, fun c hc => ?_, rfl⟩
  simp [hc]

theorem instructionDecoder_nops (ir : Byte) : (instructionDecoder ir).nops = opcodeNops ir := by
  unfold instructionDecoder
  split <;> rfl

theorem instructionDecoder_len (ir : Byte) : (instructionDecoder ir).len = opcodeLen ir := by
  unfold instructionDecoder
  split <;> rfl

/-- `len` has the bits to hold `nops + 1` (R57). -/
theorem opcodeLen_toNat (ir : Byte) : (opcodeLen ir).toNat = ir.toNat / 64 + 1 := by
  rw [opcodeLen, BitVec.toNat_add, BitVec.toNat_setWidth_of_le (by decide), opcodeNops_toNat, BitVec.toNat_ofNat]
  omega

/-! ### The statements -/

/-- Settles O2: an opcode byte decodes to its own mnemonic, whose operand count says which bytes are its operands. -/
theorem decodeInvertsEncode : Obligations.DecodeInvertsEncode := fun i rest =>
  decodeWith_encodeWith (decodeOpcode_opcodeByte i.op) (opcodeByte_div_64 i.op) rest

/-- Settles O3: the decoder finds a mnemonic only by its byte and takes only its operand bytes. -/
theorem decodedBytesAreEncoding : Obligations.DecodedBytesAreEncoding := fun _ _ _ h =>
  eq_encodeWith_of_decodeWith opcodeByte_div_64 h

/-- Settles O1: the thirteen byte sequences are encodings, and no mnemonic has the byte 0xFF. -/
theorem specBytesDecode : Obligations.SpecBytesDecode :=
  have decodes := decodeInvertsEncode
  ⟨decodes .hlt [], decodes (.ldi _ _) [], decodes (.prn _) [], decodes (.add _ _) [], decodes (.sub _ _) [],
    decodes (.mul _ _) [], decodes (.div _ _) [], decodes (.cmp _ _) [], decodes (.push _) [], decodes (.pop _) [],
    decodes (.call _) [], decodes .ret [_], decodes (.jmp _) [], decodeWith_cons_unknown (by decide) _⟩

/-- Settles O4: a byte is valid just where it decodes to a mnemonic, which its byte and its `op` code determine. -/
theorem decoderTotalAndUnambiguous : Obligations.DecoderTotalAndUnambiguous := by
  refine ⟨fun ir => ?_, fun _ _ => opcodeByte_injective⟩
  cases hop : decodeOpcode ir with
  | none =>
    refine .inr ⟨(instructionDecoder_unknown hop).1, fun m hm => ?_⟩
    simp [← hm] at hop
  | some m =>
    obtain rfl := decodeOpcode_some hop
    rw [instructionDecoder_opcodeByte]
    exact .inl ⟨rfl, m, rfl, rfl, fun _ hn => (opCode_injective hn).symm⟩

/-- Settles O5: each row is its mnemonic's, and a byte outside the thirteen decodes to none. -/
theorem decoderOutputsMatchTable : Obligations.DecoderOutputsMatchTable := by
  refine ⟨decoderRow_opcodeByte .hlt, decoderRow_opcodeByte .ldi, decoderRow_opcodeByte .prn, decoderRow_opcodeByte .add,
    decoderRow_opcodeByte .sub, decoderRow_opcodeByte .mul, decoderRow_opcodeByte .div, decoderRow_opcodeByte .cmp,
    decoderRow_opcodeByte .push, decoderRow_opcodeByte .pop, decoderRow_opcodeByte .call, decoderRow_opcodeByte .ret,
    decoderRow_opcodeByte .jmp, fun ir => ⟨?_, ?_, fun hir => ?_⟩⟩
  · rw [instructionDecoder_nops, opcodeNops_toNat]
  · rw [instructionDecoder_len, opcodeLen_toNat]
  · exact instructionDecoder_unknown (decodeOpcode_eq_none hir)

end Sys2Proof

namespace Sys2Proof.Machine

/-- Settles O7: the range check on the whole byte decides. -/
theorem registerOperandIsWholeByte : Obligations.RegisterOperandIsWholeByte := fun r =>
  ⟨fun hr => ⟨⟨r.toNat, Nat.lt_succ_of_le hr⟩, rfl, regIndex_ok _⟩, regIndex_error⟩

end Sys2Proof.Machine
end

section
/-! Program text (30_encoding.md R70, 70_reset_and_hazards.md R146, R147). -/

namespace Sys2Proof.Machine

/-- The digit of bit `k` of a byte. -/
def bitDigit (b : Byte) (k : Nat) : Char := if b.getLsbD k then '1' else '0'

theorem binaryLine_eq (b : Byte) : binaryLine b = (List.range 8).reverse.map (bitDigit b) := rfl

theorem binaryValue_bitDigit (acc : Nat) (b : Byte) (k : Nat) (rest : List Char) :
    binaryValue acc (bitDigit b k :: rest) = binaryValue (2 * acc + b.toNat / 2 ^ k % 2) rest := by
  rw [← Nat.toNat_testBit, ← BitVec.getLsbD, bitDigit]
  cases b.getLsbD k <;> rfl

/-- The digits of the low `k` bits, most significant first, shift the value read before them and add these bits. -/
theorem binaryValue_lowBits (b : Byte) (k acc : Nat) :
    binaryValue acc ((List.range k).reverse.map (bitDigit b)) = some (acc * 2 ^ k + b.toNat % 2 ^ k) := by
  induction k generalizing acc with
  | zero => simp [binaryValue, Nat.mod_one]
  | succ k ih =>
    rw [List.range_succ, List.reverse_append, List.reverse_singleton, List.singleton_append, List.map_cons,
      binaryValue_bitDigit, ih, Nat.mod_pow_succ]
    ring_nf

theorem binaryValue_binaryLine (b : Byte) : binaryValue 0 (binaryLine b) = some b.toNat := by
  rw [binaryLine_eq, binaryValue_lowBits, Nat.zero_mul, Nat.zero_add, Nat.mod_eq_of_lt b.isLt]

/-- A line without comment and blanks is its own content. -/
theorem lineContent_eq_self {line : List Char} (h : ∀ c ∈ line, c ≠ '#' ∧ isBlankChar c = false) :
    lineContent line = line := by
  have hcomment : line.takeWhile (fun c => c != '#') = line :=
    List.takeWhile_eq_self_iff.mpr fun c hc => by simpa using (h c hc).1
  have hblanks : ∀ l : List Char, l ⊆ line → l.dropWhile isBlankChar = l := fun l hl =>
    List.dropWhile_eq_self_iff.mpr fun hpos => by simp [(h _ (hl (List.getElem_mem hpos))).2]
  rw [lineContent, hcomment, hblanks line (List.Subset.refl _), hblanks _ (by simp), List.reverse_reverse]

theorem lineContent_binaryLine (b : Byte) : lineContent (binaryLine b) = binaryLine b := by
  refine lineContent_eq_self fun c hc => ?_
  obtain ⟨k, -, rfl⟩ := List.mem_map.mp hc
  split <;> decide

/-- A line of at most eight binary digits stands for their value. -/
theorem parseLine_of_binaryValue {line : List Char} {v : Nat} (hcontent : lineContent line = line) (hne : line ≠ [])
    (hvalue : binaryValue 0 line = some v) (hlen : line.length ≤ 8) : parseLine line = .ok (some (BitVec.ofNat 8 v)) := by
  obtain ⟨c, rest, rfl⟩ := List.exists_cons_of_ne_nil hne
  simp only [parseLine, hcontent, hvalue, if_pos hlen]

theorem parseLine_binaryLine (b : Byte) : parseLine (binaryLine b) = .ok (some b) := by
  rw [parseLine_of_binaryValue (lineContent_binaryLine b) nofun (binaryValue_binaryLine b) le_rfl, BitVec.ofNat_toNat,
    BitVec.setWidth_eq]

/-- Lines of eight binary digits are read as the bytes they were written for. -/
theorem parseLines_map_binaryLine (bytes : List Byte) : parseLines (bytes.map binaryLine) = .ok bytes := by
  induction bytes with
  | nil => rfl
  | cons b rest ih =>
    rw [List.map_cons, parseLines, parseLine_binaryLine, ih]
    rfl

/-- Settles O57: the loader reads each line back as its byte. -/
theorem programTextRoundTrips : Obligations.ProgramTextRoundTrips := fun i => parseLines_map_binaryLine (encode i)

end Sys2Proof.Machine
end

section
/-! Assembly text (30_encoding.md R69): the operands as words, and what the reader makes of them. -/

namespace Sys2Proof.Machine

/-! ### Words and commas -/

/-- The operands of an instruction as words of assembly text. -/
def operandWords : Instr → List (List Char)
  | .hlt | .ret => []
  | .ldi r imm => [registerText r, decimalText imm]
  | .prn r | .push r | .pop r | .call r | .jmp r => [registerText r]
  | .add a b | .sub a b | .mul a b | .div a b | .cmp a b => [registerText a, registerText b]

/-- The operand text is empty, or a space and the words with commas between them. -/
theorem operandText_cases (i : Instr) :
    (operandWords i = [] ∧ operandText i = []) ∨
      (operandWords i ≠ [] ∧ operandText i = ' ' :: [','].intercalate (operandWords i)) := by
  cases i <;> simp [operandWords, operandText]

theorem splitCommas_word {w : List Char} (h : ',' ∉ w) : splitCommas w = [w] := by
  induction w with
  | nil => rfl
  | cons c w ih =>
    obtain ⟨hc, hw⟩ : c ≠ ',' ∧ ',' ∉ w := by simpa [eq_comm] using h
    rw [splitCommas, if_neg hc, ih hw]

theorem splitCommas_append_comma {w : List Char} (h : ',' ∉ w) (rest : List Char) :
    splitCommas (w ++ ',' :: rest) = w :: splitCommas rest := by
  induction w with
  | nil => rfl
  | cons c w ih =>
    obtain ⟨hc, hw⟩ : c ≠ ',' ∧ ',' ∉ w := by simpa [eq_comm] using h
    rw [List.cons_append, splitCommas, if_neg hc, ih hw]

/-- Words without commas, put together with commas, are cut into the same words. -/
theorem splitCommas_intercalate {words : List (List Char)} (hne : words ≠ []) (h : ∀ w ∈ words, ',' ∉ w) :
    splitCommas ([','].intercalate words) = words := by
  induction words with
  | nil => exact absurd rfl hne
  | cons w words ih =>
    have hw : ',' ∉ w := h w List.mem_cons_self
    cases words with
    | nil => simpa using splitCommas_word hw
    | cons v words =>
      rw [List.intercalate_cons_cons, List.append_assoc, List.singleton_append, splitCommas_append_comma hw,
        ih (List.cons_ne_nil _ _) fun u hu => h u (List.mem_cons_of_mem _ hu)]

/-! ### Registers and immediates -/

/-- The names R0 to R7 have no comma and are read back. -/
theorem registerText_spec : ∀ i : Fin 8,
    ',' ∉ registerText (BitVec.ofNat 8 i) ∧
      parseRegister (registerText (BitVec.ofNat 8 i)) = some (BitVec.ofNat 8 i) := by
  decide

theorem comma_not_mem_registerText {r : Byte} (h : r.toNat < 8) : ',' ∉ registerText r := by
  simpa using (registerText_spec ⟨r.toNat, h⟩).1

theorem parseRegister_registerText {r : Byte} (h : r.toNat < 8) : parseRegister (registerText r) = some r := by
  simpa using (registerText_spec ⟨r.toNat, h⟩).2

theorem isDigit_of_mem_decimalText {b : Byte} {c : Char} (h : c ∈ decimalText b) : c.isDigit = true :=
  Nat.isDigit_of_mem_toDigits (by decide) (by decide) h

theorem comma_not_mem_decimalText (b : Byte) : ',' ∉ decimalText b := fun h =>
  absurd (isDigit_of_mem_decimalText h) (by decide)

/-- The reader's value of decimal digits is the library's. -/
theorem decimalValue_of_isDigit {digits : List Char} (h : ∀ c ∈ digits, c.isDigit = true) (acc : Nat) :
    decimalValue acc digits = some (Nat.ofDigitChars 10 digits acc) := by
  induction digits generalizing acc with
  | nil => rfl
  | cons c rest ih =>
    have hc : '0' ≤ c ∧ c ≤ '9' := by simpa [Char.isDigit, Char.le_def] using h c List.mem_cons_self
    rw [decimalValue, if_pos hc, ih fun d hd => h d (List.mem_cons_of_mem _ hd)]
    rfl

theorem decimalValue_decimalText (b : Byte) : decimalValue 0 (decimalText b) = some b.toNat := by
  rw [decimalValue_of_isDigit fun _ => isDigit_of_mem_decimalText, decimalText,
    Nat.ofDigitChars_toDigits (by decide) (by decide)]

theorem parseImmediate_of_decimalValue {digits : List Char} {v : Nat} (hne : digits ≠ [])
    (hvalue : decimalValue 0 digits = some v) (hv : v < 256) : parseImmediate digits = some (BitVec.ofNat 8 v) := by
  obtain ⟨c, rest, rfl⟩ := List.exists_cons_of_ne_nil hne
  simp only [parseImmediate, hvalue, if_pos hv]

theorem parseImmediate_decimalText (b : Byte) : parseImmediate (decimalText b) = some b := by
  rw [parseImmediate_of_decimalValue (digits := decimalText b) Nat.toDigits_ne_nil (decimalValue_decimalText b) b.isLt,
    BitVec.ofNat_toNat, BitVec.setWidth_eq]

/-! ### Mnemonics -/

theorem find?_mnemonicText (m : Op) : (Op.all.find? fun n => mnemonicText n == mnemonicText m) = some m := by
  cases m <;> rfl

theorem mnemonicText_ne_space (m : Op) : ∀ c ∈ mnemonicText m, (c != ' ') = true := by
  cases m <;> simp [mnemonicText]

/-- A mnemonic alone is an instruction without operands. -/
theorem parseAssembly_mnemonic (m : Op) : parseAssembly (mnemonicText m) = parseOperands m [] := by
  have hname : (mnemonicText m).takeWhile (fun c => c != ' ') = mnemonicText m :=
    List.takeWhile_eq_self_iff.mpr (mnemonicText_ne_space m)
  simp [parseAssembly, hname, find?_mnemonicText]

/-- What stands after a mnemonic and a space is cut into its operands. -/
theorem parseAssembly_mnemonic_space (m : Op) (text : List Char) :
    parseAssembly (mnemonicText m ++ ' ' :: text) = parseOperands m (splitCommas text) := by
  have hname : (mnemonicText m ++ ' ' :: text).takeWhile (fun c => c != ' ') = mnemonicText m := by
    simp [List.takeWhile_append_of_pos (mnemonicText_ne_space m)]
  simp [parseAssembly, hname, find?_mnemonicText]

/-! ### Instructions -/

/-- Well-formed is: every register operand names one of R0 to R7 (R61, R69). -/
theorem wellFormed_iff (i : Instr) : i.wellFormed = true ↔ ∀ r ∈ registerOperandBytes i, r.toNat < 8 := by
  cases i <;> simp [Instr.wellFormed, registerOperandBytes, regOk]

theorem comma_not_mem_operandWords {i : Instr} (h : ∀ r ∈ registerOperandBytes i, r.toNat < 8) :
    ∀ w ∈ operandWords i, ',' ∉ w := by
  cases i <;> simp_all [operandWords, registerOperandBytes, comma_not_mem_registerText, comma_not_mem_decimalText]

/-- The operand words of an instruction are read back as that instruction. -/
theorem parseOperands_operandWords {i : Instr} (h : ∀ r ∈ registerOperandBytes i, r.toNat < 8) :
    parseOperands i.op (operandWords i) = some i := by
  cases i <;> simp_all [operandWords, registerOperandBytes, Instr.op, parseOperands, parseRegister_registerText,
    parseImmediate_decimalText]

/-- Settles O58: the mnemonic is read up to the space, the operands are cut at the commas, and each is read back. -/
theorem assemblyTextRoundTrips : Obligations.AssemblyTextRoundTrips := by
  intro i hwf
  have hregs := (wellFormed_iff i).mp hwf
  have hread := parseOperands_operandWords hregs
  rcases operandText_cases i with ⟨hwords, htext⟩ | ⟨hwords, htext⟩
  · rw [assemblyText, htext, List.append_nil, parseAssembly_mnemonic, ← hwords, hread]
  · rw [assemblyText, htext, parseAssembly_mnemonic_space,
      splitCommas_intercalate hwords (comma_not_mem_operandWords hregs), hread]

end Sys2Proof.Machine
end

section
/-! What is fetched of the bytes that stand from `pc` on (40_fetch_execute.md R73 to R76). -/

namespace Sys2Proof.Machine

open Sys2Proof

/-- The bytes from an address on, each by its place. -/
theorem State.bytesFrom_getElem? (s : State) (n : Nat) : ∀ a k : Nat,
    (s.bytesFrom a n)[k]? = if k < n ∧ a + k < 256 then some (s.mem.read (a + k)) else none := by
  induction n with
  | zero => simp [State.bytesFrom]
  | succ n ih =>
    intro a k
    rw [State.bytesFrom, Config.memSize]
    split_ifs with ha hk hk
    · cases k with
      | zero => rfl
      | succ k => rw [List.getElem?_cons_succ, ih, if_pos (by omega), show a + 1 + k = a + (k + 1) by omega]
    · cases k with
      | zero => omega
      | succ k => rw [List.getElem?_cons_succ, ih, if_neg (by omega)]
    · omega
    · rfl

/-- A mnemonic and its operand bytes make the instruction. -/
theorem assemble_operandBytes (i : Instr) :
    assemble i.op ((operandBytes i).getD 0 0#8) ((operandBytes i).getD 1 0#8) = i := by
  cases i <;> rfl

/-- The bytes of `i` stand in memory from `pc` on, all inside the 256 bytes. -/
def HoldsAtPc (s : State) (i : Instr) : Prop :=
  ∀ (k : Nat) (b : Byte), (encode i)[k]? = some b → s.pc.toNat + k < 256 ∧ s.mem.read (s.pc.toNat + k) = b

variable {s : State} {i : Instr}

theorem HoldsAtPc.opcode (h : HoldsAtPc s i) : s.mem.read s.pc.toNat = opcodeByte i.op :=
  (h 0 _ rfl).2

theorem HoldsAtPc.fits (h : HoldsAtPc s i) : s.pc.toNat + operandCount i.op < 256 := by
  have hlen : operandCount i.op < (encode i).length := by
    rw [encode, encodeWith, List.length_cons, operandBytes_length]
    exact Nat.lt_succ_self _
  exact (h _ _ (List.getElem?_eq_getElem hlen)).1

/-- The operand byte `k + 1` places past `pc`, 0 where the instruction has none. -/
theorem HoldsAtPc.operand (h : HoldsAtPc s i) (k : Nat) :
    (if k + 1 ≤ operandCount i.op then s.mem.read (s.pc.toNat + (k + 1)) else 0#8) = (operandBytes i).getD k 0#8 := by
  rw [← operandBytes_length]
  split_ifs with hk
  · rw [List.getD_eq_getElem _ _ hk]
    exact (h (k + 1) _ (List.getElem?_eq_getElem hk)).2
  · rw [List.getD_eq_default _ _ (Nat.le_of_not_lt hk)]

/-- Bytes that encode an instruction are fetched as it. -/
theorem HoldsAtPc.fetch_eq (h : HoldsAtPc s i) : fetch s = .ok i := by
  have ha : operandA s i.op = (operandBytes i).getD 0 0#8 := h.operand 0
  have hb : operandB s i.op = (operandBytes i).getD 1 0#8 := h.operand 1
  rw [fetch_ok (by rw [h.opcode, decodeOpcode_opcodeByte]) h.fits, ha, hb, assemble_operandBytes]

/-- What decodes from the bytes at `pc` stands there as its encoding. -/
theorem HoldsAtPc.of_decode {n : Nat} {rest : List Byte} (h : decode (s.bytesFrom s.pc.toNat n) = .ok (i, rest)) :
    HoldsAtPc s i := by
  intro k b hb
  have hk : k < (encode i).length := (List.getElem?_eq_some_iff.1 hb).1
  have hread : (s.bytesFrom s.pc.toNat n)[k]? = some b := by
    rw [decodedBytesAreEncoding _ _ _ h, List.getElem?_append_left hk, hb]
  rw [State.bytesFrom_getElem?] at hread
  split_ifs at hread with hin
  exact ⟨hin.2, Option.some.inj hread⟩

end Sys2Proof.Machine
end

section
/-! The ports of the register file, and the check of an instruction's register operands (40_fetch_execute.md R85,
60_exceptions.md R125, R132). -/

namespace Sys2Proof.Machine

open Sys2Proof

variable {s : State} {i : Instr}

/-! ### Ports -/

/-- The index of a register is the one byte with its number. -/
theorem eq_indexByte {idx : Byte} {j : RegIndex} (h : idx.toNat = j.val) : idx = indexByte j :=
  BitVec.eq_of_toNat_eq (h.trans (indexByte_toNat j).symm)

theorem RegFile.readData_ok (f : RegFile) {idx : Byte} (h : idx.toNat < 8) : f.readData idx = f.get ⟨idx.toNat, h⟩ := by
  rw [RegFile.readData, indexOf_ok h]

theorem RegFile.next_write (f : RegFile) {p : RegFileIn} (h : p.wIdx.toNat < 8) (hwe : p.we = true) :
    f.next p = f.set ⟨p.wIdx.toNat, h⟩ p.wData := by
  rw [RegFile.next, RegFile.afterWrite, hwe, if_pos rfl, indexOf_ok h]

theorem RegFile.next_idle (f : RegFile) {p : RegFileIn} (h : p.we = false ∨ 8 ≤ p.wIdx.toNat) : f.next p = f := by
  rw [RegFile.next, RegFile.afterWrite]
  rcases h with hwe | hbad
  · rw [hwe]; rfl
  · rw [indexOf_none hbad, ite_self]

/-- An access of `R[j]` is a read at any index with its number. -/
theorem State.readData_eq_getReg (s : State) {idx : Byte} {j : RegIndex} (h : idx.toNat = j.val) :
    s.regs.readData idx = s.getReg j := by
  rw [State.getReg, eq_indexByte h]

/-- A write of `R[j]` is what the write port does at any index with its number. -/
theorem State.setReg_eq_next (s : State) {p : RegFileIn} {j : RegIndex} (h : p.wIdx.toNat = j.val) (hwe : p.we = true) :
    s.setReg j p.wData = { s with regs := s.regs.next p } := by
  rw [State.setReg, RegFile.next, eq_indexByte h, hwe]

/-- `idx_err` says that a used index names no register. -/
theorem idxErr_iff (used : List Byte) : idxErr used = true ↔ ∃ r ∈ used, 7 < r.toNat := by
  simp [idxErr, indexOf, Nat.succ_le_iff]

/-! ### The register checks of an instruction -/

/-- A second register operand above 7 is raised where the first passes (60_exceptions.md R132). -/
theorem exec_secondOperand_invalid {a b : Byte} (hregs : registerOperandBytes i = [a, b]) (ha : a.toNat < 8)
    (hb : 8 ≤ b.toNat) (s : State) : exec i s = .next (s.raise (.invalidRegister b) i.opcode) := by
  cases i with
  | hlt | ret | ldi | prn | push | pop | call | jmp => cases hregs
  | add | sub | mul | div | cmp => cases hregs; exact congrArg _ (aluFrame_badB ha hb)

theorem registerOperandBytes_length_le (i : Instr) : (registerOperandBytes i).length ≤ 2 := by
  cases i <;> simp [registerOperandBytes]

/-- The first register operand above 7 is raised, before anything is written. -/
theorem exec_invalidRegister {r : Byte}
    (h : (registerOperandBytes i).find? (fun r => decide (7 < r.toNat)) = some r) (s : State) :
    exec i s = .next (s.raise (.invalidRegister r) i.opcode) := by
  obtain ⟨hr, before, after, hregs, hpass⟩ := List.find?_eq_some_iff_append.1 h
  have hr : 8 ≤ r.toNat := of_decide_eq_true hr
  have hlen := registerOperandBytes_length_le i
  match before with
  | [] => exact exec_firstOperand_invalid (by rw [hregs]; rfl) hr s
  | [a] =>
    obtain rfl : after = [] := by
      rw [hregs] at hlen
      exact List.length_eq_zero_iff.1 (by simpa using hlen)
    have ha : a.toNat < 8 := by simpa [Nat.lt_succ_iff] using hpass a
    exact exec_secondOperand_invalid hregs ha hr s
  | _ :: _ :: _ =>
    rw [hregs] at hlen
    simp at hlen

/-- The machine is not FAULTED by InvalidRegister. -/
def NoRegisterFault (t : State) : Prop := t.run ≠ .faulted ∨ t.fault.kind ≠ 2#3

theorem FaultKind.eq_invalidRegister {k : FaultKind} (h : k.code = 2#3) : k = .invalidRegister := by
  revert h
  cases k <;> decide

theorem NoRegisterFault.raise {c : FaultCause} {ir : Byte} (hc : c.kind ≠ .invalidRegister) :
    NoRegisterFault (s.raise c ir) :=
  .inr fun hk => hc (FaultKind.eq_invalidRegister hk)

theorem NoRegisterFault.of_running {u : State} (hu : u.run = .running) : NoRegisterFault u :=
  .inl fun hf => nomatch hu.symm.trans hf

/-- The only error of the advance is InvalidAddress. -/
theorem NoRegisterFault.advance {u : State} {ir : Byte} (hu : u.run = .running) : NoRegisterFault (u.advance ir) := by
  rcases advance_cases u ir with ⟨-, e⟩ | ⟨-, e⟩ <;> rw [e]
  · exact .of_running hu
  · exact .raise nofun

/-- ADD, SUB, MUL and DIV with register operands up to 7. -/
theorem execAluWrite_noRegisterFault {a b : Byte}
    (hi : (i.op, i) ∈ [(Op.add, Instr.add a b), (.sub, .sub a b), (.mul, .mul a b), (.div, .div a b)])
    (hrun : s.run = .running) (ha : ¬ 8 ≤ a.toNat) (hb : ¬ 8 ≤ b.toNat) :
    ∃ t, exec i s = .next t ∧ NoRegisterFault t := by
  rcases execAluWrite_cases s a b hi with ⟨bad, -⟩ | ⟨-, bad, -⟩ | ⟨_, _, ⟨-, -, e⟩ | ⟨-, e⟩⟩
  · exact absurd bad ha
  · exact absurd bad hb
  · exact ⟨_, e, .raise nofun⟩
  · exact ⟨_, e, .advance hrun⟩

/-- An instruction whose register operands are all up to 7 does not raise InvalidRegister: its other checks raise errors of
other kinds, and so does the advance. -/
theorem exec_noRegisterFault (hrun : s.run = .running) (hregs : ∀ r ∈ registerOperandBytes i, ¬ 8 ≤ r.toNat) :
    ∃ t, exec i s = .next t ∧ NoRegisterFault t := by
  cases i with
  | hlt => exact ⟨_, rfl, .inl nofun⟩
  | ldi r imm =>
    rcases execLdi_cases s r imm with ⟨bad, -⟩ | ⟨_, e⟩
    · exact absurd bad (hregs r (.head _))
    · exact ⟨_, e, .advance hrun⟩
  | prn r =>
    rcases execPrn_cases s r with ⟨bad, -⟩ | ⟨_, e⟩
    · exact absurd bad (hregs r (.head _))
    · exact ⟨_, e, .advance hrun⟩
  | add a b | sub a b | mul a b | div a b =>
    exact execAluWrite_noRegisterFault (by simp [Instr.op]) hrun (hregs a (.head _)) (hregs b (.tail _ (.head _)))
  | cmp a b =>
    rcases execCmp_cases s a b with ⟨bad, -⟩ | ⟨-, bad, -⟩ | ⟨_, _, e⟩
    · exact absurd bad (hregs a (.head _))
    · exact absurd bad (hregs b (.tail _ (.head _)))
    · exact ⟨_, e, .advance hrun⟩
  | push r =>
    rcases execPush_cases s r with ⟨bad, -⟩ | ⟨_, e⟩
    · exact absurd bad (hregs r (.head _))
    · exact ⟨_, e, .advance hrun⟩
  | pop r =>
    rcases execPop_cases s r with ⟨bad, -⟩ | ⟨-, -, e⟩ | ⟨_, -, e⟩
    · exact absurd bad (hregs r (.head _))
    · exact ⟨_, e, .raise nofun⟩
    · exact ⟨_, e, .advance hrun⟩
  | call r =>
    rcases execCall_cases s r with ⟨bad, -⟩ | ⟨-, -, e⟩ | ⟨_, -, e⟩
    · exact absurd bad (hregs r (.head _))
    · exact ⟨_, e, .raise nofun⟩
    · exact ⟨_, e, .of_running hrun⟩
  | ret =>
    rcases execRet_cases s with ⟨-, e⟩ | ⟨-, e⟩
    · exact ⟨_, e, .raise nofun⟩
    · exact ⟨_, e, .of_running hrun⟩
  | jmp r =>
    rcases execJmp_cases s r with ⟨bad, -⟩ | ⟨_, e⟩
    · exact absurd bad (hregs r (.head _))
    · exact ⟨_, e, .of_running hrun⟩

end Sys2Proof.Machine
end

section
/-! The statements about fetching and executing (40_fetch_execute.md). -/

namespace Sys2Proof

open Sys2Proof.Machine Sys2Proof.Safety Sys2Proof.Claims

/-- Settles O16: the operand bytes fetched are those after `pc`, and the first past address 255 is at 256. -/
theorem operandFetch : Obligations.OperandFetch := by
  intro s m hrun hm
  have hdec : decodeOpcode (s.mem.read s.pc.toNat) = some m := by rw [hm, decodeOpcode_opcodeByte]
  rw [instructionDecoder_nops, opcodeNops_opcodeByte]
  refine ⟨fun hpc => ⟨operandA s m, operandB s m, fun h1 => if_pos h1, fun h2 => if_pos h2.ge, ?_⟩, fun hpc => ?_⟩
  · exact step_fetched hrun (fetch_ok hdec (Nat.lt_succ_of_le hpc))
  · rw [step_fetchFault hrun (fetch_truncated hdec hpc), hm]

/-- Settles O55: the step answers the same state, so by induction every number of steps does. -/
theorem jmpToItselfNeverEnds : Obligations.JmpToItselfNeverEnds := by
  intro s hr hrun hpc hop htarget n
  have hdec : decodeOpcode (s.mem.read s.pc.toNat) = some .jmp := by rw [hop]; exact decodeOpcode_opcodeByte .jmp
  have hfetch : fetch s = .ok (.jmp (s.mem.read (s.pc.toNat + 1))) :=
    fetch_ok hdec (Nat.add_lt_add_right (Nat.lt_succ_of_le hpc) 1)
  have hstep : step s = .next s := by
    rcases execJmp_cases s (s.mem.read (s.pc.toNat + 1)) with ⟨bad, -⟩ | ⟨_, e⟩
    · exact absurd hr (Nat.not_lt.2 bad)
    · rw [step_fetched hrun hfetch, e, State.getReg_eq, htarget]
      rfl
  have hloop : Host.Core.run Sys2Proof.core n s = .next s := by
    induction n with
    | zero => rfl
    | succ n ih => rw [run_succ hstep, ih]
  exact ⟨hloop, s, hloop, by rw [hrun]; nofun⟩

/-- Settles O60: an index up to 7 selects its register at each port, and `idx_err` is the register check of the
instruction. -/
theorem blocksAreReachedThroughPorts : Obligations.BlocksAreReachedThroughPorts := by
  refine ⟨fun f p used => ⟨f.readData_ok, f.readData_ok, rfl, idxErr_iff used, f.next_write, f.next_idle⟩,
    fun i s => ⟨fun r hr => exec_invalidRegister hr s, fun hrun hidx t h hf => ?_⟩,
    fun s i p used => ⟨s.readData_eq_getReg, s.readData_eq_getReg, s.setReg_eq_next⟩,
    fun s v len f => ⟨pcPlusLen_toNat s.pc len, rfl, rfl, rfl, rfl, rfl, rfl, rfl, rfl⟩⟩
  have hregs : ∀ r ∈ registerOperandBytes i, ¬ 8 ≤ r.toNat := fun r hr hbad =>
    Bool.false_ne_true (hidx.symm.trans ((idxErr_iff _).2 ⟨r, hr, hbad⟩))
  obtain ⟨t', e, hkind⟩ := exec_noRegisterFault hrun hregs
  cases e.symm.trans h
  exact hkind.resolve_left (absurd hf)

/-- Settles O14: the bytes at `pc` are the encoding of what they decode to, and it is fetched. -/
theorem stepRunsDecodedInstruction : Obligations.StepRunsDecodedInstruction := fun _ _ _ hrun h =>
  step_fetched hrun (HoldsAtPc.of_decode h).fetch_eq

/-- Settles O15: only a byte that decodes to no mnemonic has `valid` = 0. -/
theorem unknownOpcodeRaises : Obligations.UnknownOpcodeRaises := by
  intro s hrun hvalid
  cases hop : decodeOpcode (s.mem.read s.pc.toNat) with
  | none => exact step_fetchFault hrun (fetch_unknown hop)
  | some m =>
    rw [decodeOpcode_some hop, instructionDecoder_opcodeByte] at hvalid
    cases hvalid

end Sys2Proof
end

section
/-! What an instruction leaves of the flags, the output, the run state and the fault record, and where the instructions that
store nothing leave registers and memory (10_state.md R19, R26, R33, 41_load_output.md R89). -/

namespace Sys2Proof.Machine

open Sys2Proof Sys2Proof.Claims

variable {i : Instr} {s t : State}

/-! ### From the instruction's effect -/

/-- The state an instruction answered, as the effect that led to it. -/
theorem exec_effect_eq (h : exec i s = .next t) : ∃ e : Effect, e.Of i.op s ∧ t = e.apply s := by
  obtain ⟨e, he, hF⟩ := exec_effect i s
  cases (hF s (.refl s)).symm.trans h
  exact ⟨e, he, rfl⟩

theorem exec_flags_of_ne_cmp (h : exec i s = .next t) (hop : i.op ≠ .cmp) : t.flags = s.flags := by
  obtain ⟨e, he, rfl⟩ := exec_effect_eq h
  rw [Effect.apply, he.keepsFlags hop, Option.getD_none]

theorem exec_out_of_ne_prn (h : exec i s = .next t) (hop : i.op ≠ .prn) : t.out = s.out := by
  obtain ⟨e, he, rfl⟩ := exec_effect_eq h
  rw [Effect.apply, he.emits hop]
  rfl

/-- Only HLT enters HALTED, so any other instruction goes on or faults (10_state.md R29). -/
theorem exec_keptOrFaulted (h : exec i s = .next t) (hop : i.op ≠ .hlt) : KeptOrFaulted s t := by
  obtain ⟨e, he, rfl⟩ := exec_effect_eq h
  cases hend : e.ending with
  | goesOn => exact .inl (by simp [Effect.apply, hend, Ending.run, Ending.record])
  | halts => exact absurd (he.halts hend).1 hop
  | faults r => exact .inr (by simp [Effect.apply, hend, Ending.run])

/-! ### Registers and memory -/

/-- LDI, ADD, SUB, MUL and DIV raise an error, or write their first operand's register and advance. -/
theorem execRegisterWriter_cases {d b : Byte}
    (hi : i ∈ [Instr.ldi d b, .add d b, .sub d b, .mul d b, .div d b]) (s : State) :
    (∃ c, exec i s = .next (s.raise c i.opcode)) ∨
      ∃ (hd : d.toNat < 8) (v : Byte), exec i s = .next ((s.setReg ⟨d.toNat, hd⟩ v).advance i.opcode) := by
  rcases List.mem_cons.1 hi with rfl | hi
  · rcases execLdi_cases s d b with ⟨-, e⟩ | ⟨hd, e⟩
    · exact .inl ⟨_, e⟩
    · exact .inr ⟨hd, _, e⟩
  · have halu : (i.op, i) ∈ [(Op.add, Instr.add d b), (.sub, .sub d b), (.mul, .mul d b), (.div, .div d b)] :=
      List.mem_map_of_mem (f := fun i : Instr => (i.op, i)) hi
    rcases execAluWrite_cases s d b halu with ⟨-, e⟩ | ⟨-, -, e⟩ | ⟨hd, _, ⟨-, -, e⟩ | ⟨-, e⟩⟩
    · exact .inl ⟨_, e⟩
    · exact .inl ⟨_, e⟩
    · exact .inl ⟨_, e⟩
    · exact .inr ⟨hd, _, e⟩

/-- PRN, CMP, JMP and HLT leave the register file and memory alone. -/
theorem exec_regs_mem_of_noWrite {x y : Byte} (hi : i ∈ [Instr.prn x, .cmp x y, .jmp x, .hlt])
    (h : exec i s = .next t) : t.regs = s.regs ∧ t.mem = s.mem := by
  simp only [List.mem_cons, List.not_mem_nil, or_false] at hi
  rcases hi with rfl | rfl | rfl | rfl
  · rcases execPrn_cases s x with ⟨-, e⟩ | ⟨_, e⟩ <;> cases e.symm.trans h
    · exact ⟨rfl, rfl⟩
    · exact ⟨(advance_frame _ _).1, advance_mem _ _⟩
  · rcases execCmp_cases s x y with ⟨-, e⟩ | ⟨-, -, e⟩ | ⟨_, _, e⟩ <;> cases e.symm.trans h
    · exact ⟨rfl, rfl⟩
    · exact ⟨rfl, rfl⟩
    · exact ⟨(advance_frame _ _).1, advance_mem _ _⟩
  · rcases execJmp_cases s x with ⟨-, e⟩ | ⟨_, e⟩ <;> cases e.symm.trans h <;> exact ⟨rfl, rfl⟩
  · cases h
    exact ⟨rfl, rfl⟩

end Sys2Proof.Machine
end

section
/-! The sequential advance of an instruction, by its mnemonic, and the operand fetch that runs past memory
(40_fetch_execute.md R76, R78). -/

namespace Sys2Proof.Machine

open Sys2Proof Sys2Proof.Claims

theorem advance_opcodeByte_ok {s : State} {m : Op} (h : s.pc.toNat + operandCount m < 255) :
    s.advance (opcodeByte m) = { s with pc := s.pc + BitVec.ofNat 8 (operandCount m + 1) } := by
  rw [advance_ok (by rw [opcodeLen_opcodeByte]; omega), opcodeLen_opcodeByte, State.setPc_eq, BitVec.ofNat_add,
    BitVec.ofNat_toNat, BitVec.setWidth_eq]

theorem advance_opcodeByte_fault {s : State} {m : Op} (h : s.pc.toNat + operandCount m = 255) :
    s.advance (opcodeByte m) = s.raise (.invalidAddress 256) (opcodeByte m) := by
  have hsum : s.pc.toNat + (operandCount m + 1) = 256 := congrArg Nat.succ h
  rw [advance_fault (by rw [opcodeLen_opcodeByte, hsum]), opcodeLen_opcodeByte, hsum]

/-- From an address on at which the operands no longer fit, an operand fetch faults. -/
theorem fetchFaultsFrom {m : Op} {lo : Nat} (hlo : 256 ≤ lo + operandCount m) : FetchFaultsFrom (opcodeByte m) lo := by
  intro s hrun hm hpc
  have hdec : decodeOpcode (s.mem.read s.pc.toNat) = some m := by rw [hm, decodeOpcode_opcodeByte]
  rw [step_fetchFault hrun (fetch_truncated hdec (by omega)), hm]

/-! ### LDI and PRN with a register operand up to 7 -/

section LoadOutput
variable {r : Byte} (hr : r.toNat < 8) (s : State)

theorem execLdi_ok (imm : Byte) :
    exec (.ldi r imm) s = .next (State.advance { s with regs := s.regs.set ⟨r.toNat, hr⟩ imm } (opcodeByte .ldi)) := by
  rw [← State.setReg_eq]
  exact ((execLdi_cases s r imm).resolve_left fun bad => Nat.not_le.2 hr bad.1).2

theorem execPrn_ok :
    exec (.prn r) s =
      .next (State.advance { s with out := s.out ++ [s.regs.get ⟨r.toNat, hr⟩] } (opcodeByte .prn)) := by
  rw [← State.emit_eq, ← State.getReg_eq]
  exact ((execPrn_cases s r).resolve_left fun bad => Nat.not_le.2 hr bad.1).2

theorem execLdi_completes (imm : Byte) (hpc : s.pc.toNat ≤ 252) :
    exec (.ldi r imm) s = .next { s with regs := s.regs.set ⟨r.toNat, hr⟩ imm, pc := s.pc + 3#8 } := by
  exact (execLdi_ok hr s imm).trans (congrArg _ (advance_opcodeByte_ok (Nat.add_lt_add_right (Nat.lt_succ_of_le hpc) 2)))

theorem execPrn_completes (hpc : s.pc.toNat ≤ 253) :
    exec (.prn r) s = .next { s with out := s.out ++ [s.regs.get ⟨r.toNat, hr⟩], pc := s.pc + 2#8 } := by
  exact (execPrn_ok hr s).trans (congrArg _ (advance_opcodeByte_ok (Nat.add_lt_add_right (Nat.lt_succ_of_le hpc) 1)))

end LoadOutput

end Sys2Proof.Machine
end

section
/-! The statements about LDI and PRN, and about the instructions that write a register or none (41_load_output.md,
42_alu.md R96). -/

namespace Sys2Proof

open Sys2Proof.Machine Sys2Proof.Safety Sys2Proof.Claims

/-- Settles O32: whether the instruction raises or writes its register and advances, no other register and no byte of memory
is written; the rest is in what the effect of such an instruction can be. -/
theorem registerWritersFrame : Obligations.RegisterWritersFrame := by
  intro d b i s t hi h
  have hop : i.op ≠ .cmp ∧ i.op ≠ .prn ∧ i.op ≠ .hlt := by
    simp only [List.mem_cons, List.not_mem_nil, or_false] at hi
    rcases hi with rfl | rfl | rfl | rfl | rfl <;> exact ⟨nofun, nofun, nofun⟩
  obtain ⟨hcmp, hprn, hhlt⟩ := hop
  have hframe : (∀ j : RegIndex, j.val ≠ d.toNat → t.getReg j = s.getReg j) ∧ t.mem = s.mem := by
    rcases execRegisterWriter_cases hi s with ⟨c, e⟩ | ⟨hd, v, e⟩ <;> cases e.symm.trans h
    · exact ⟨fun _ _ => rfl, rfl⟩
    · refine ⟨fun j hj => ?_, advance_mem _ _⟩
      have hne : j ≠ ⟨d.toNat, hd⟩ := fun e => hj (congrArg Fin.val e)
      rw [State.getReg_eq, State.getReg_eq, (advance_frame _ _).1, State.setReg_regs, RegFile.get_set_other _ v hne]
  obtain ⟨hregs, hmem⟩ := hframe
  exact ⟨hregs, exec_flags_of_ne_cmp h hcmp, exec_out_of_ne_prn h hprn, fun a => by rw [hmem], exec_keptOrFaulted h hhlt⟩

/-- Settles O33: each of the four leaves registers and memory, and by its mnemonic keeps what CMP, PRN and HLT alone
change. -/
theorem noRegisterWrittenFrame : Obligations.NoRegisterWrittenFrame := by
  intro x y i s t hi h
  obtain ⟨hregs, hmem⟩ := exec_regs_mem_of_noWrite hi h
  have hop : (i ≠ .cmp x y → i.op ≠ .cmp) ∧ (i ≠ .prn x → i.op ≠ .prn) ∧ (i ≠ .hlt → i.op ≠ .hlt) := by
    simp only [List.mem_cons, List.not_mem_nil, or_false] at hi
    rcases hi with rfl | rfl | rfl | rfl <;> simp [Instr.op]
  obtain ⟨hcmp, hprn, hhlt⟩ := hop
  refine ⟨fun j => ?_, fun a => by rw [hmem], fun hne => exec_flags_of_ne_cmp h (hcmp hne),
    fun hne => exec_out_of_ne_prn h (hprn hne), fun hne => exec_keptOrFaulted h (hhlt hne), ?_⟩
  · rw [State.getReg_eq, State.getReg_eq, hregs]
  · rintro rfl
    cases h
    exact ⟨rfl, rfl⟩

/-- Settles O49: LDI's write is what PRN reads, and at `pc` up to 250 both complete. -/
theorem ldiThenPrnEmitsImmediate : Obligations.LdiThenPrnEmitsImmediate := by
  intro r imm s hr hpc
  have hpc' : (s.pc + 3#8).toNat ≤ 253 := by bv_omega
  have hldi := execLdi_completes hr s imm (by omega)
  have hprn := execPrn_completes hr { s with regs := s.regs.set ⟨r.toNat, hr⟩ imm, pc := s.pc + 3#8 } hpc'
  simp only [execAll, hldi, hprn]
  exact ⟨_, rfl, by rw [RegFile.get_set_same], rfl⟩

/-- Settles O19: the write, then the advance of three bytes, which ends inside memory up to 252 and at 256 from 253. -/
theorem ldiLoadsImmediate : Obligations.LdiLoadsImmediate := by
  refine ⟨fun r imm => rfl, fun r imm s hr => ⟨execLdi_completes hr s imm, fun hpc => ?_⟩,
    fun r imm s hr => exec_firstOperand_invalid rfl hr s, fetchFaultsFrom (m := .ldi) (by decide)⟩
  exact (execLdi_ok hr s imm).trans (congrArg _ (advance_opcodeByte_fault (congrArg (· + 2) hpc)))

/-- Settles O20: the emission, then the advance of two bytes, which ends inside memory up to 253 and at 256 from 254. -/
theorem prnEmitsRegister : Obligations.PrnEmitsRegister := by
  refine ⟨fun r => rfl, fun r s hr => ⟨execPrn_completes hr s, fun hpc => ?_⟩,
    fun r s hr => exec_firstOperand_invalid rfl hr s, fetchFaultsFrom (m := .prn) (by decide)⟩
  exact (execPrn_ok hr s).trans (congrArg _ (advance_opcodeByte_fault (congrArg (· + 1) hpc)))

end Sys2Proof
end

section
/-! The outputs of alu_8bit as numbers, and of an operation code outside the five (42_alu.md R95, R97, R102, R103). -/

namespace Sys2Proof.Machine

open Sys2Proof

variable (x y : Byte)

theorem alu8bit_unsupported {op : BitVec 3} (hop : op = 0b100#3 ∨ op = 0b101#3 ∨ op = 0b110#3) :
    alu8bit op x y = aluError op x y .unsupportedOperation := by
  rcases hop with rfl | rfl | rfl <;> rfl

theorem alu8bit_div_of_zero : alu8bit 0b011#3 x 0#8 = aluError 0b011#3 x 0#8 .divisionByZero := rfl

/-- The operation codes of ADD, SUB, MUL, DIV and CMP are supported. -/
theorem alu8bit_err_ne_unsupported {m : Op} {op : BitVec 3} (hop : aluOpCode m = some op) :
    (alu8bit op x y).err ≠ .unsupportedOperation := by
  cases m with
  | add | sub | mul | cmp => cases hop; exact nofun
  | div =>
    cases hop
    by_cases hy : y = 0#8
    · rw [hy, alu8bit_div_of_zero]; exact nofun
    · rw [alu8bit_div hy]; exact nofun
  | hlt | ldi | prn | push | pop | call | ret | jmp => cases hop

/-- SUB's byte as R99 words it: the difference, and 256 more where that is negative. -/
theorem sub_toNat_of_le_or_borrow :
    (x - y).toNat = if y.toNat ≤ x.toNat then x.toNat - y.toNat else 256 + x.toNat - y.toNat := by
  split <;> bv_omega

theorem byte_ne_zero {y : Byte} (h : y.toNat ≠ 0) : y ≠ 0#8 := fun e => h (congrArg BitVec.toNat e)

end Sys2Proof.Machine
end

section
/-! The five ALU instructions with register operands up to 7, at each `pc`, and their register checks (42_alu.md R96,
40_fetch_execute.md R78). -/

namespace Sys2Proof.Machine

open Sys2Proof Sys2Proof.Safety Sys2Proof.Claims

/-- An effect and the advance of three bytes, which ends inside memory up to 252 and at 256 from 253. -/
theorem exec_of_advance_twoOperands {i : Instr} {m : Op} {s u : State} (hm : operandCount m = 2)
    (h : exec i s = .next (u.advance (opcodeByte m))) :
    (u.pc.toNat ≤ 252 → exec i s = .next { u with pc := u.pc + 3#8 }) ∧
    (u.pc.toNat = 253 → exec i s = .next (u.raise (.invalidAddress 256) (opcodeByte m))) := by
  refine ⟨fun hpc => ?_, fun hpc => ?_⟩
  · rw [h, advance_opcodeByte_ok (by omega), hm]
  · rw [h, advance_opcodeByte_fault (by omega)]

/-- An instruction with two register operands raises the first of them above 7, and from `pc` 254 on its operand fetch
faults. -/
theorem twoRegisterOperands_faults {m : Op} (hm : registerOperands m = 2) :
    RegisterChecks (assemble m) (opcodeByte m) ∧ FetchFaultsFrom (opcodeByte m) 254 := by
  have hoperands : (∀ a b, registerOperandBytes (assemble m a b) = [a, b]) ∧ operandCount m = 2 := by
    cases m with
    | add | sub | mul | div | cmp => exact ⟨fun _ _ => rfl, rfl⟩
    | hlt | ldi | prn | push | pop | call | ret | jmp => cases hm
  obtain ⟨hregs, hcount⟩ := hoperands
  have hopcode (a b : Byte) : (assemble m a b).opcode = opcodeByte m := congrArg opcodeByte (assemble_op m a b)
  refine ⟨fun a b s => ?_, fetchFaultsFrom (by omega)⟩
  rw [← hopcode a b]
  exact ⟨fun ha => exec_firstOperand_invalid (by rw [hregs]; rfl) ha s,
    fun ha hb => exec_secondOperand_invalid (hregs a b) ha hb s⟩

section Operands
variable {m : Op} {i : Instr} {a b : Byte} (s : State) (ha : a.toNat < 8) (hb : b.toNat < 8)

/-- ADD, SUB and MUL, and DIV with a divisor that is not 0, write `v` to the first register and advance. -/
theorem execAluWrite_writes (hi : (m, i) ∈ [(Op.add, Instr.add a b), (.sub, .sub a b), (.mul, .mul a b), (.div, .div a b)])
    (hz : m = .div → s.regs.get ⟨b.toNat, hb⟩ ≠ 0#8) {v : Byte}
    (hv : aluValue m (s.regs.get ⟨a.toNat, ha⟩) (s.regs.get ⟨b.toNat, hb⟩) = v) :
    let regs := s.regs.set ⟨a.toNat, ha⟩ v
    (s.pc.toNat ≤ 252 → exec i s = .next { s with regs := regs, pc := s.pc + 3#8 }) ∧
    (s.pc.toNat = 253 → exec i s = .next (State.raise { s with regs := regs } (.invalidAddress 256) (opcodeByte m))) := by
  have hexec : exec i s = .next (State.advance { s with regs := s.regs.set ⟨a.toNat, ha⟩ v } (opcodeByte m)) := by
    rcases execAluWrite_cases s a b hi with ⟨bad, -⟩ | ⟨-, bad, -⟩ | ⟨_, _, ⟨hdiv, h0, -⟩ | ⟨-, e⟩⟩
    · omega
    · omega
    · exact absurd (State.getReg_eq s _ ▸ h0) (hz hdiv)
    · rw [e, State.getReg_eq, State.getReg_eq, hv, State.setReg_eq]
  have hcount : operandCount m = 2 := by
    simp only [List.mem_cons, Prod.mk.injEq, List.not_mem_nil, or_false] at hi
    rcases hi with ⟨rfl, -⟩ | ⟨rfl, -⟩ | ⟨rfl, -⟩ | ⟨rfl, -⟩ <;> rfl
  exact exec_of_advance_twoOperands hcount hexec

/-- CMP writes the flags of the comparison and advances. -/
theorem execCmp_writes {flags : Flags}
    (hflags : compareFlags (s.regs.get ⟨a.toNat, ha⟩) (s.regs.get ⟨b.toNat, hb⟩) = flags) :
    (s.pc.toNat ≤ 252 → exec (.cmp a b) s = .next { s with flags := flags, pc := s.pc + 3#8 }) ∧
    (s.pc.toNat = 253 →
      exec (.cmp a b) s = .next (State.raise { s with flags := flags } (.invalidAddress 256) (opcodeByte .cmp))) := by
  have hexec : exec (.cmp a b) s = .next (State.advance { s with flags := flags } (opcodeByte .cmp)) := by
    rcases execCmp_cases s a b with ⟨bad, -⟩ | ⟨-, bad, -⟩ | ⟨_, _, e⟩
    · omega
    · omega
    · rw [e, State.getReg_eq, State.getReg_eq, hflags, State.driveFlags_write]
  exact exec_of_advance_twoOperands rfl hexec

end Operands

/-- DIV raises a zero divisor after the register checks, whatever `pc` is. -/
theorem execDiv_zero {a b : Byte} (s : State) (ha : a.toNat < 8) (hb : b.toNat < 8)
    (h0 : s.regs.get ⟨b.toNat, hb⟩ = 0#8) :
    exec (.div a b) s = .next (s.raise (.divisionByZero ⟨b.toNat, hb⟩) (opcodeByte .div)) := by
  rcases execAluWrite_cases (m := .div) (i := .div a b) s a b (by simp) with
    ⟨bad, -⟩ | ⟨-, bad, -⟩ | ⟨_, _, ⟨-, -, e⟩ | ⟨hne, -⟩⟩
  · omega
  · omega
  · exact e
  · exact absurd ((State.getReg_eq s _).trans h0) (hne rfl)

/-- With one register named twice, its new value is the result on its old value paired with itself (42_alu.md R104). -/
theorem execAluWrite_sameRegister {m : Op} {i : Instr} {r : Byte} {s : State} (hr : r.toNat < 8) (hpc : s.pc.toNat ≤ 252)
    (hi : (m, i) ∈ [(Op.add, Instr.add r r), (.sub, .sub r r), (.mul, .mul r r), (.div, .div r r)])
    (hz : m = .div → s.regs.get ⟨r.toNat, hr⟩ ≠ 0#8) {k : Nat}
    (hk : (aluValue m (s.regs.get ⟨r.toNat, hr⟩) (s.regs.get ⟨r.toNat, hr⟩)).toNat = k) :
    ∃ t, exec i s = .next t ∧ (t.getReg ⟨r.toNat, hr⟩).toNat = k ∧
      ((⟨r.toNat, hr⟩ : RegIndex) = 7 → t.sp.toNat = k) ∧ t.run = s.run := by
  refine ⟨_, (execAluWrite_writes s hr hr hi hz rfl).1 hpc, ?_, fun h7 => ?_, rfl⟩
  · rw [State.getReg_eq, RegFile.get_set_same, hk]
  · rw [State.sp_eq, ← h7, RegFile.get_set_same, hk]

end Sys2Proof.Machine
end

section
/-! No instruction raises UnsupportedOperation: each of its checks raises an error of another kind (42_alu.md R97). -/

namespace Sys2Proof.Machine

open Sys2Proof

/-- The machine is not FAULTED by UnsupportedOperation, whose code is 6. -/
def NoUnsupportedFault (t : State) : Prop := t.run = .faulted → t.fault.kind ≠ 6#3

theorem FaultKind.code_ne_six {k : FaultKind} (h : k ≠ .unsupportedOperation) : k.code ≠ 6#3 := by
  revert h
  cases k <;> decide

section
variable {s u : State} {ir : Byte}

theorem NoUnsupportedFault.raise {c : FaultCause} (hc : c.kind ≠ .unsupportedOperation) :
    NoUnsupportedFault (s.raise c ir) := fun _ => FaultKind.code_ne_six hc

theorem NoUnsupportedFault.of_running (hu : u.run = .running) : NoUnsupportedFault u :=
  fun hf => nomatch hu.symm.trans hf

/-- The only error of the advance is InvalidAddress. -/
theorem NoUnsupportedFault.advance (hu : u.run = .running) : NoUnsupportedFault (u.advance ir) := by
  rcases advance_cases u ir with ⟨-, e⟩ | ⟨-, e⟩ <;> rw [e]
  · exact .of_running hu
  · exact .raise nofun

/-- Checks whose error, if any, is not UnsupportedOperation, and whose answer otherwise satisfies `P`. -/
def ChecksSupported {α : Type} (P : α → Prop) : Except FaultCause α → Prop
  | .ok a => P a
  | .error c => c.kind ≠ .unsupportedOperation

theorem ChecksSupported.bind {α β : Type} {P : α → Prop} {Q : β → Prop} {x : Except FaultCause α}
    {K : α → Except FaultCause β} (hx : ChecksSupported P x) (hK : ∀ a, ChecksSupported Q (K a)) :
    ChecksSupported Q (x >>= K) := by
  cases x with
  | ok a => exact hK a
  | error c => exact hx

theorem NoUnsupportedFault.checked {x : Except FaultCause State} (hx : ChecksSupported NoUnsupportedFault x) :
    NoUnsupportedFault (checked s ir x) := by
  cases x with
  | ok t => exact hx
  | error c => exact .raise hx

end

theorem regIndex_supported (r : Byte) : ChecksSupported (fun _ => True) (regIndex r) := by
  rcases regIndex_cases r with ⟨_, e⟩ | ⟨_, e⟩ <;> rw [e]
  · trivial
  · exact nofun

theorem checkUnderflow_supported (s : State) : ChecksSupported (fun _ => True) (checkUnderflow s) := by
  unfold checkUnderflow
  split
  · exact nofun
  · trivial

theorem returnAddress_supported (s : State) : ChecksSupported (fun _ => True) (returnAddress s) := by
  unfold returnAddress
  dsimp only
  split
  · trivial
  · exact nofun

/-- An ALU frame with the operation code of an instruction. -/
theorem aluFrame_noUnsupportedFault {s : State} (hrun : s.run = .running) {m : Op} {op : BitVec 3}
    (hop : aluOpCode m = some op) {ir a b : Byte} : NoUnsupportedFault (aluFrame op ir a b s) := by
  refine .checked ((regIndex_supported a).bind fun ra => (regIndex_supported b).bind fun rb =>
    .bind (P := fun _ => True) ?_ fun _ => NoUnsupportedFault.advance hrun)
  have herr := alu8bit_err_ne_unsupported (s.getReg ra) (s.getReg rb) hop
  unfold aluCheck
  split
  · trivial
  · exact nofun
  · contradiction

/-- No instruction that begins RUNNING raises UnsupportedOperation. -/
theorem exec_noUnsupportedFault {s : State} (hrun : s.run = .running) (i : Instr) :
    ∃ t, exec i s = .next t ∧ NoUnsupportedFault t := by
  cases i with
  | hlt => exact ⟨_, rfl, nofun⟩
  | add => exact ⟨_, rfl, aluFrame_noUnsupportedFault hrun (m := .add) rfl⟩
  | sub => exact ⟨_, rfl, aluFrame_noUnsupportedFault hrun (m := .sub) rfl⟩
  | mul => exact ⟨_, rfl, aluFrame_noUnsupportedFault hrun (m := .mul) rfl⟩
  | div => exact ⟨_, rfl, aluFrame_noUnsupportedFault hrun (m := .div) rfl⟩
  | cmp => exact ⟨_, rfl, aluFrame_noUnsupportedFault hrun (m := .cmp) rfl⟩
  | ldi r | prn r | push r =>
    exact ⟨_, rfl, .checked ((regIndex_supported r).bind fun _ => NoUnsupportedFault.advance hrun)⟩
  | pop r =>
    exact ⟨_, rfl, .checked ((regIndex_supported r).bind fun _ => (checkUnderflow_supported s).bind fun _ =>
      NoUnsupportedFault.advance hrun)⟩
  | call r =>
    exact ⟨_, rfl, .checked ((regIndex_supported r).bind fun _ => (returnAddress_supported s).bind fun _ =>
      NoUnsupportedFault.of_running hrun)⟩
  | ret =>
    exact ⟨_, rfl, .checked ((checkUnderflow_supported s).bind fun _ => NoUnsupportedFault.of_running hrun)⟩
  | jmp r => exact ⟨_, rfl, .checked ((regIndex_supported r).bind fun _ => NoUnsupportedFault.of_running hrun)⟩

end Sys2Proof.Machine
end

section
/-! The statements about the ALU and its instructions (42_alu.md). -/

namespace Sys2Proof

open Sys2Proof.Machine Sys2Proof.Safety Sys2Proof.Claims

/-- Settles O21: the byte sum is the sum of the two numbers modulo 256. -/
theorem addWrapsModulo256 : Obligations.AddWrapsModulo256 := by
  refine ⟨fun a b => rfl, fun a b s ha hb => execAluWrite_writes (m := .add) s ha hb (by simp) nofun ?_,
    twoRegisterOperands_faults (m := .add) rfl⟩
  exact BitVec.eq_of_toNat_eq (by simp [aluValue])

/-- Settles O22: the byte difference is the difference of the two numbers, borrowing 256 where it is negative. -/
theorem subWrapsModulo256 : Obligations.SubWrapsModulo256 := by
  refine ⟨fun a b => rfl, fun a b s ha hb => execAluWrite_writes (m := .sub) s ha hb (by simp) nofun ?_,
    twoRegisterOperands_faults (m := .sub) rfl⟩
  rw [← sub_toNat_of_le_or_borrow, BitVec.ofNat_toNat, BitVec.setWidth_eq]
  rfl

/-- Settles O23: the byte product is the product of the two numbers modulo 256. -/
theorem mulKeepsLowByte : Obligations.MulKeepsLowByte := by
  refine ⟨fun a b => rfl, fun a b s ha hb => execAluWrite_writes (m := .mul) s ha hb (by simp) nofun ?_,
    twoRegisterOperands_faults (m := .mul) rfl⟩
  exact BitVec.eq_of_toNat_eq (by simp [aluValue])

/-- Settles O24: a zero divisor is raised before the write; otherwise the unsigned byte quotient is written. -/
theorem divFloorsOrRaises : Obligations.DivFloorsOrRaises := by
  refine ⟨fun a b => rfl, fun a b s ha hb => ?_, twoRegisterOperands_faults (m := .div) rfl⟩
  have hwrites (hne : (s.regs.get ⟨b.toNat, hb⟩).toNat ≠ 0) :=
    execAluWrite_writes (m := .div) (i := .div a b) s ha hb (by simp) (fun _ => byte_ne_zero hne)
      ((ofInt_div _ _).symm.trans (BitVec.ofInt_natCast _ _))
  exact ⟨fun h0 => execDiv_zero s ha hb (BitVec.eq_of_toNat_eq h0), fun hne => (hwrites hne).1,
    fun hne => (hwrites hne).2⟩

/-- Settles O25: the comparison sets one flag, and CMP's effect is those flags and the advance. -/
theorem cmpSetsOneFlag : Obligations.CmpSetsOneFlag :=
  ⟨fun _ _ => rfl, fun _ _ s ha hb => execCmp_writes s ha hb (compareFlags_eq _ _),
    twoRegisterOperands_faults (m := .cmp) rfl⟩

/-- Settles O46: the frame raises what the ALU reports, and none of the five codes of the instructions is reported so. -/
theorem unsupportedOperationIsUnreachable : Obligations.UnsupportedOperationIsUnreachable := by
  refine ⟨fun op ir a b s ha hb hop => ?_, fun i s t hrun h => ?_⟩
  · rw [aluFrame, regIndex_ok ha, regIndex_ok hb, except_ok_bind, except_ok_bind, alu8bit_unsupported _ _ hop]
    rfl
  · obtain ⟨t', hexec, hkind⟩ := exec_noUnsupportedFault hrun i
    cases hexec.symm.trans h
    exact hkind

/-- Settles O50: each result on a register's byte paired with itself. -/
theorem aluOnOneRegister : Obligations.AluOnOneRegister := by
  intro r s hr hpc n x
  have hx : x = (s.regs.get n).toNat := congrArg BitVec.toNat (State.getReg_eq s n)
  refine ⟨?_, fun hne => ?_, fun h0 => ?_, ?_⟩
  · simp only [List.forall_mem_cons, hx]
    refine ⟨execAluWrite_sameRegister (m := .add) hr hpc (by simp) nofun ?_,
      execAluWrite_sameRegister (m := .sub) hr hpc (by simp) nofun ?_,
      execAluWrite_sameRegister (m := .mul) hr hpc (by simp) nofun ?_, nofun⟩
    · rw [aluValue, BitVec.toNat_add, Nat.two_mul]
    · rw [aluValue, BitVec.sub_self, BitVec.toNat_zero]
    · rw [aluValue, BitVec.toNat_mul]
  · rw [hx] at hne
    refine execAluWrite_sameRegister (m := .div) hr hpc (by simp) (fun _ => byte_ne_zero hne) ?_
    rw [aluValue, BitVec.toNat_udiv, Nat.div_self (Nat.pos_of_ne_zero hne)]
  · exact execDiv_zero s hr hr (BitVec.eq_of_toNat_eq (hx.symm.trans h0))
  · have hflags : compareFlags (s.regs.get n) (s.regs.get n) = ⟨true, false, false⟩ := by
      rw [compareFlags_eq, if_pos rfl]
    exact ⟨_, (execCmp_writes s hr hr hflags).1 hpc, rfl, rfl⟩

/-- Settles O13: the outputs for each of the eight operation codes. -/
theorem aluFunction : Obligations.AluFunction := by
  intro x y
  refine ⟨?_, ?_, ?_, ⟨fun hne => ?_, fun h0 => ?_⟩, ⟨rfl, rfl, rfl, rfl, rfl, rfl⟩, fun op hop => ?_⟩
  · rw [alu8bit_add]
    exact ⟨BitVec.toNat_add x y, rfl, rfl, rfl⟩
  · rw [alu8bit_sub]
    exact ⟨by bv_omega, rfl, rfl, rfl⟩
  · rw [alu8bit_mul]
    exact ⟨BitVec.toNat_mul x y, rfl, rfl, rfl⟩
  · rw [alu8bit_div (byte_ne_zero hne)]
    exact ⟨BitVec.toNat_udiv, rfl, rfl, rfl⟩
  · obtain rfl : y = 0#8 := BitVec.eq_of_toNat_eq h0
    rw [alu8bit_div_of_zero]
    exact ⟨rfl, rfl, rfl⟩
  · rw [alu8bit_unsupported x y hop]
    exact ⟨rfl, rfl, rfl⟩

end Sys2Proof
end

section
/-! The stack_pointer block as numbers, and PUSH and POP with a register operand up to 7 (43_stack.md R106 to R111). -/

namespace Sys2Proof.Machine

open Sys2Proof

/-! ### The stack_pointer block -/

theorem spDec_eq_ofNat (sp : Byte) : spDec sp = BitVec.ofNat 8 ((sp.toNat + 255) % 256) := by
  rw [← spDec_toNat, BitVec.ofNat_toNat, BitVec.setWidth_eq]

/-- `sp_inc` as R108 gives it. -/
theorem spInc_toNat (sp : Byte) : (spInc sp).toNat = (sp.toNat + 1) % 256 := BitVec.toNat_add sp 1#8

theorem spInc_eq_ofNat (sp : Byte) : spInc sp = BitVec.ofNat 8 ((sp.toNat + 1) % 256) := by
  rw [← spInc_toNat, BitVec.ofNat_toNat, BitVec.setWidth_eq]

@[simp] theorem spInc_spDec (sp : Byte) : spInc (spDec sp) = sp := BitVec.sub_add_cancel sp 1#8

/-- Where the decremented SP lies at or above SP_INIT (R107, R109). -/
theorem spDec_underflow_iff (sp : Byte) : 0xF4 ≤ (spDec sp).toNat ↔ sp.toNat = 0 ∨ 0xF5 ≤ sp.toNat := by
  have hsp : sp.toNat < 256 := sp.isLt
  rw [spDec_toNat]
  omega

/-! ### The advance of two bytes -/

/-- An effect and the advance of two bytes, which ends inside memory up to 253 and at 256 from 254. -/
theorem exec_of_advance_oneOperand {i : Instr} {m : Op} {s u : State} (hm : operandCount m = 1)
    (h : exec i s = .next (u.advance (opcodeByte m))) :
    (u.pc.toNat ≤ 253 → exec i s = .next { u with pc := u.pc + 2#8 }) ∧
    (u.pc.toNat = 254 → exec i s = .next (u.raise (.invalidAddress 256) (opcodeByte m))) := by
  refine ⟨fun hpc => ?_, fun hpc => ?_⟩
  · rw [h, advance_opcodeByte_ok (by omega), hm]
  · rw [h, advance_opcodeByte_fault (by omega)]

/-! ### PUSH and POP -/

/-- The register file after POP writes `v` to `R[i]` and then increments SP, read after that (R111). -/
def RegFile.afterPop (f : RegFile) (i : RegIndex) (v : Byte) : RegFile :=
  (f.set i v).set 7 (spInc ((f.set i v).get 7))

/-- POP leaves every register but its own and R7. -/
theorem RegFile.get_afterPop_other (f : RegFile) {i j : RegIndex} (v : Byte) (hi : j ≠ i) (h7 : j ≠ 7) :
    (f.afterPop i v).get j = f.get j := by
  rw [RegFile.afterPop, RegFile.get_set_other _ _ h7, RegFile.get_set_other _ _ hi]

/-- A POP of the byte that PUSH stored, at the SP that PUSH left, restores the register and SP. For R7 the byte is itself the
decremented SP. -/
theorem RegFile.get_afterPop_pushed (f : RegFile) {g : RegFile} (hsp : g.get 7 = spDec (f.get 7)) (i : RegIndex) :
    let popped := g.afterPop i ((f.set 7 (spDec (f.get 7))).get i)
    popped.get i = f.get i ∧ popped.get 7 = f.get 7 := by
  by_cases hi : i = 7
  · subst hi
    simp [RegFile.afterPop]
  · simp [RegFile.afterPop, RegFile.get_set_other, hi, Ne.symm hi, hsp]

theorem execPop_underflow {r : Byte} (hr : r.toNat < 8) (s : State) (hsp : 0xF4 ≤ s.sp.toNat) :
    exec (.pop r) s = .next (s.raise (.stackUnderflow s.sp) (opcodeByte .pop)) := by
  rcases execPop_cases s r with ⟨bad, -⟩ | ⟨-, -, e⟩ | ⟨_, bad, -⟩
  · omega
  · exact e
  · omega

section Operand
variable {r : Byte} (hr : r.toNat < 8) (s : State)

theorem execPush_ok :
    exec (.push r) s = .next (State.advance
      { s with regs := s.regs.set 7 (spDec s.sp),
               mem := s.mem.write (spDec s.sp).toNat ((s.regs.set 7 (spDec s.sp)).get ⟨r.toNat, hr⟩) }
      (opcodeByte .push)) := by
  rw [← State.decSp_regs, ← State.getReg_eq]
  exact ((execPush_cases s r).resolve_left fun bad => Nat.not_le.2 hr bad.1).2

theorem execPop_ok (hsp : s.sp.toNat < 0xF4) :
    exec (.pop r) s = .next (State.advance
      { s with regs := s.regs.afterPop ⟨r.toNat, hr⟩ (s.mem.read s.sp.toNat) } (opcodeByte .pop)) := by
  rcases execPop_cases s r with ⟨bad, -⟩ | ⟨-, bad, -⟩ | ⟨_, -, e⟩
  · omega
  · omega
  · rw [e, State.setReg_eq]
    rfl

/-- A PUSH that completes lowers SP by one modulo 256, moves `pc` by two, keeps the run state, and its byte is what is read at
the new SP. -/
theorem execPush_completes (hpc : s.pc.toNat ≤ 253) :
    ∃ t, exec (.push r) s = .next t ∧ t.sp = spDec s.sp ∧ t.pc.toNat = s.pc.toNat + 2 ∧ t.run = s.run ∧
      t.mem.read t.sp.toNat = (s.regs.set 7 (spDec s.sp)).get ⟨r.toNat, hr⟩ := by
  have hsum : (s.pc + 2#8).toNat = s.pc.toNat + 2 := by bv_omega
  exact ⟨_, (exec_of_advance_oneOperand rfl (execPush_ok hr s)).1 hpc, by simp, hsum, rfl, by simp⟩

end Operand

/-! ### What the stack instructions leave of registers and memory -/

variable {i : Instr} {r : Byte} {s t : State}

/-- PUSH and CALL leave registers and memory alone, or decrement SP and store one byte there. -/
theorem exec_regs_mem_of_stackStore (hi : i ∈ [Instr.push r, .call r]) (h : exec i s = .next t) :
    (t.regs = s.regs ∧ t.mem = s.mem) ∨
      (t.regs = s.regs.set 7 (spDec s.sp) ∧ ∃ v, t.mem = s.mem.write (spDec s.sp).toNat v) := by
  simp only [List.mem_cons, List.not_mem_nil, or_false] at hi
  rcases hi with rfl | rfl
  · rcases execPush_cases s r with ⟨-, e⟩ | ⟨_, e⟩ <;> cases e.symm.trans h
    · exact .inl ⟨rfl, rfl⟩
    · exact .inr ⟨(advance_frame _ _).1, _, advance_mem _ _⟩
  · rcases execCall_cases s r with ⟨-, e⟩ | ⟨-, -, e⟩ | ⟨_, -, e⟩ <;> cases e.symm.trans h
    · exact .inl ⟨rfl, rfl⟩
    · exact .inl ⟨rfl, rfl⟩
    · exact .inr ⟨rfl, _, rfl⟩

/-- POP leaves memory alone, and registers too or it pops one byte. -/
theorem execPop_regs_mem (h : exec (.pop r) s = .next t) :
    t.mem = s.mem ∧ (t.regs = s.regs ∨ ∃ (hr : r.toNat < 8) (v : Byte), t.regs = s.regs.afterPop ⟨r.toNat, hr⟩ v) := by
  rcases execPop_cases s r with ⟨-, e⟩ | ⟨-, -, e⟩ | ⟨hr, hsp, -⟩
  · cases e.symm.trans h
    exact ⟨rfl, .inl rfl⟩
  · cases e.symm.trans h
    exact ⟨rfl, .inl rfl⟩
  · cases (execPop_ok hr s hsp).symm.trans h
    exact ⟨advance_mem _ _, .inr ⟨hr, _, (advance_frame _ _).1⟩⟩

/-- RET leaves memory and every register but R7 alone. -/
theorem execRet_regs_mem (h : exec .ret s = .next t) : t.mem = s.mem ∧ ∀ j, j ≠ 7 → t.regs.get j = s.regs.get j := by
  rcases execRet_cases s with ⟨-, e⟩ | ⟨-, e⟩ <;> cases e.symm.trans h
  · exact ⟨rfl, fun _ _ => rfl⟩
  · exact ⟨rfl, fun j hj => RegFile.get_set_other _ _ hj⟩

end Sys2Proof.Machine
end

section
/-! The statements about the stack (43_stack.md). -/

namespace Sys2Proof

open Sys2Proof.Machine Sys2Proof.Safety Sys2Proof.Claims

/-- Settles O26: the decrement and the store, then the advance of two bytes. -/
theorem pushStoresBelowStack : Obligations.PushStoresBelowStack := by
  refine ⟨fun r => rfl, fun r s hr => ?_, fun r s hr => exec_firstOperand_invalid rfl hr s,
    fetchFaultsFrom (m := .push) (by decide)⟩
  rw [← spDec_eq_ofNat]
  exact exec_of_advance_oneOperand rfl (execPush_ok hr s)

/-- Settles O27: below SP_INIT the write and the increment, then the advance of two bytes; from SP_INIT up the underflow. -/
theorem popLoadsFromStack : Obligations.PopLoadsFromStack := by
  refine ⟨fun r => rfl, fun r s hr => ?_, fun r s hr => exec_firstOperand_invalid rfl hr s,
    fetchFaultsFrom (m := .pop) (by decide)⟩
  intro popped regs
  have hregs : regs = s.regs.afterPop ⟨r.toNat, hr⟩ (s.mem.read s.sp.toNat) := by
    rw [RegFile.afterPop, spInc_eq_ofNat]
  have hpops (hsp : s.sp.toNat < 0xF4) := exec_of_advance_oneOperand rfl (execPop_ok hr s hsp)
  rw [hregs]
  exact ⟨fun hsp => (hpops hsp).1, fun hsp => (hpops hsp).2, execPop_underflow hr s⟩

/-- Settles O34: the decremented SP is the one register written, and its address the one byte. -/
theorem stackStoresFrame : Obligations.StackStoresFrame := by
  intro r i s t hi h
  have hop : i.op ≠ .cmp ∧ i.op ≠ .prn ∧ i.op ≠ .hlt := by
    simp only [List.mem_cons, List.not_mem_nil, or_false] at hi
    rcases hi with rfl | rfl <;> exact ⟨nofun, nofun, nofun⟩
  obtain ⟨hcmp, hprn, hhlt⟩ := hop
  have hframe : (∀ j : RegIndex, j ≠ 7 → t.getReg j = s.getReg j) ∧
      ∀ a, a ≠ (spDec s.sp).toNat → t.mem.read a = s.mem.read a := by
    simp only [State.getReg_eq]
    rcases exec_regs_mem_of_stackStore hi h with ⟨hregs, hmem⟩ | ⟨hregs, v, hmem⟩ <;> rw [hregs, hmem]
    · exact ⟨fun _ _ => rfl, fun _ _ => rfl⟩
    · exact ⟨fun j hj => RegFile.get_set_other _ _ hj, fun a ha => Memory.read_write_other _ v ha⟩
  obtain ⟨hregs, hmem⟩ := hframe
  exact ⟨hregs, exec_flags_of_ne_cmp h hcmp, exec_out_of_ne_prn h hprn, hmem, exec_keptOrFaulted h hhlt⟩

/-- Settles O35: POP writes its register and R7, RET R7 alone, and neither writes memory. -/
theorem stackLoadsFrame : Obligations.StackLoadsFrame := by
  refine ⟨fun r s t h => ?_, fun s t h => ?_⟩
  · obtain ⟨hmem, hregs⟩ := execPop_regs_mem h
    refine ⟨fun j hj h7 => ?_, exec_flags_of_ne_cmp h nofun, exec_out_of_ne_prn h nofun, fun a => by rw [hmem],
      exec_keptOrFaulted h nofun⟩
    rw [State.getReg_eq, State.getReg_eq]
    rcases hregs with e | ⟨hr, v, e⟩ <;> rw [e]
    exact RegFile.get_afterPop_other _ v (fun hji => hj (congrArg Fin.val hji)) h7
  · obtain ⟨hmem, hregs⟩ := execRet_regs_mem h
    refine ⟨fun j h7 => ?_, exec_flags_of_ne_cmp h nofun, exec_out_of_ne_prn h nofun, fun a => by rw [hmem],
      exec_keptOrFaulted h nofun⟩
    rw [State.getReg_eq, State.getReg_eq, hregs j h7]

/-- Settles O51, by induction on the list: each PUSH completes and lowers SP by one modulo 256. -/
theorem pushesLowerStackPointer : Obligations.PushesLowerStackPointer := by
  intro rs
  induction rs with
  | nil => exact fun s _ _ => ⟨s, rfl, Nat.mod_eq_of_lt s.sp.isLt, rfl, rfl⟩
  | cons r rs ih =>
    intro s hrs hpc
    rw [List.length_cons] at hpc ⊢
    obtain ⟨hr, hrs⟩ := List.forall_mem_cons.1 hrs
    obtain ⟨t, hpush, hsp, htpc, hrun, -⟩ := execPush_completes hr s (by omega)
    obtain ⟨u, hrest, husp, hupc, hurun⟩ := ih t hrs (by omega)
    refine ⟨u, by rw [List.map_cons, execAll, hpush]; exact hrest, ?_, by omega, hurun.trans hrun⟩
    have hs : s.sp.toNat < 256 := s.sp.isLt
    rw [hsp, spDec_toNat] at husp
    omega

/-- Settles O52: the POP reads the decremented SP, so it underflows where that is from SP_INIT up, and otherwise pops the
pushed byte. -/
theorem pushPopRoundTrip : Obligations.PushPopRoundTrip := by
  intro r s hr hpc
  obtain ⟨t, hpush, hsp, -, hrun, hbyte⟩ := execPush_completes hr s hpc
  refine ⟨t, hpush, hrun, fun u husp hread hupc => ?_⟩
  have hdec : u.sp = spDec s.sp := husp.trans hsp
  have hunderflow : 0xF4 ≤ u.sp.toNat ↔ s.sp.toNat = 0 ∨ 0xF5 ≤ s.sp.toNat := by rw [hdec, spDec_underflow_iff]
  refine ⟨fun hin => ?_, fun hout => execPop_underflow hr u (hunderflow.2 hout)⟩
  have hpop := (exec_of_advance_oneOperand rfl (execPop_ok hr u (by omega))).1 hupc
  rw [hread, hbyte] at hpop
  obtain ⟨hreg, hsp⟩ := RegFile.get_afterPop_pushed s.regs hdec ⟨r.toNat, hr⟩
  simp only [State.getReg_eq]
  exact ⟨_, hpop, hreg, hsp, rfl⟩

end Sys2Proof
end

section
/-! CALL, RET and JMP where their checks pass, and where one fails (44_control.md R115 to R117). -/

namespace Sys2Proof.Machine

open Sys2Proof

section RegisterOperand
variable {r : Byte} (hr : r.toNat < 8) (s : State)

/-- The return address is the number `pc + 2`, and the target is read after the decrement. -/
theorem execCall_completes (hpc : s.pc.toNat ≤ 253) :
    exec (.call r) s = .next
      { s with regs := s.regs.set 7 (spDec s.sp),
               mem := s.mem.write (spDec s.sp).toNat (BitVec.ofNat 8 (s.pc.toNat + 2)),
               pc := (s.regs.set 7 (spDec s.sp)).get ⟨r.toNat, hr⟩ } := by
  have hret : s.pc + 2#8 = BitVec.ofNat 8 (s.pc.toNat + 2) := by
    rw [BitVec.ofNat_add, BitVec.ofNat_toNat, BitVec.setWidth_eq]
  rcases execCall_cases s r with ⟨bad, -⟩ | ⟨-, bad, -⟩ | ⟨_, -, e⟩
  · omega
  · omega
  · rw [e, hret, State.getReg_eq]
    rfl

theorem execJmp_ok : exec (.jmp r) s = .next { s with pc := s.regs.get ⟨r.toNat, hr⟩ } := by
  rw [← State.setPc_eq, ← State.getReg_eq]
  exact ((execJmp_cases s r).resolve_left fun bad => Nat.not_le.2 hr bad.1).2

end RegisterOperand

theorem execCall_returnAddress_invalid {r : Byte} (hr : r.toNat < 8) (s : State) (hpc : s.pc.toNat = 254) :
    exec (.call r) s = .next (s.raise (.invalidAddress 256) (opcodeByte .call)) := by
  rcases execCall_cases s r with ⟨bad, -⟩ | ⟨-, -, e⟩ | ⟨_, bad, -⟩
  · omega
  · rw [e, hpc]
  · omega

variable {s : State}

theorem execRet_ok (hsp : s.sp.toNat < 0xF4) :
    exec .ret s = .next { s with regs := s.regs.set 7 (spInc s.sp), pc := s.mem.read s.sp.toNat } :=
  ((execRet_cases s).resolve_left fun bad => Nat.not_le.2 hsp bad.1).2

theorem execRet_underflow (hsp : 0xF4 ≤ s.sp.toNat) :
    exec .ret s = .next (s.raise (.stackUnderflow s.sp) (opcodeByte .ret)) :=
  ((execRet_cases s).resolve_right fun bad => Nat.not_le.2 bad.1 hsp).2

end Sys2Proof.Machine
end

section
/-! The statements about CALL, RET, JMP and HLT (44_control.md). -/

namespace Sys2Proof

open Sys2Proof.Machine Sys2Proof.Safety Sys2Proof.Claims

/-- Settles O28: up to 253 the return address is in memory's range, and at 254 it is 256, which is raised before the
decrement. -/
theorem callPushesReturnAddress : Obligations.CallPushesReturnAddress := by
  refine ⟨fun r => rfl, fun r s hr => ?_, fun r s hr => exec_firstOperand_invalid rfl hr s,
    fetchFaultsFrom (m := .call) (by decide)⟩
  rw [← spDec_eq_ofNat]
  exact ⟨execCall_completes hr s, execCall_returnAddress_invalid hr s⟩

/-- Settles O53: RET reads the byte that CALL stored at the decremented SP, which lies below SP_INIT, and the increment undoes
the decrement. -/
theorem callRetReturns : Obligations.CallRetReturns := by
  intro r s hr hpc hlow hhigh
  refine ⟨_, execCall_completes hr s hpc, rfl, fun u husp hread => ?_⟩
  have hdec : u.sp = spDec s.sp := by rw [husp, State.sp_eq, RegFile.get_set_same]
  have hbyte : u.mem.read u.sp.toNat = BitVec.ofNat 8 (s.pc.toNat + 2) := by
    rw [hread, ← husp, hdec, Memory.read_write_same]
  have hsp : u.sp.toNat < 0xF4 := by
    rw [hdec, spDec_toNat]
    omega
  refine ⟨_, execRet_ok hsp, ?_, ?_, rfl⟩
  · rw [hbyte, BitVec.toNat_ofNat]
    omega
  · rw [State.sp_eq, RegFile.get_set_same, hdec, spInc_spDec]

/-- Settles O29: below SP_INIT the increment of SP does not wrap; from SP_INIT up the underflow is raised. -/
theorem retPopsProgramCounter : Obligations.RetPopsProgramCounter := by
  refine ⟨rfl, fun s => ⟨fun hsp => ?_, execRet_underflow⟩⟩
  rw [execRet_ok hsp, spInc_eq_ofNat, Nat.mod_eq_of_lt (by omega)]

/-- Settles O30: where the register check passes JMP writes `pc` alone, and no advance follows. -/
theorem jmpGoesToRegister : Obligations.JmpGoesToRegister :=
  ⟨fun _ => rfl, fun _ s hr => execJmp_ok hr s, fun _ s hr => exec_firstOperand_invalid rfl hr s,
    fetchFaultsFrom (m := .jmp) (by decide)⟩

/-- Settles O31: HLT writes the run state alone, and HALTED is terminal. -/
theorem hltHaltsInPlace : Obligations.HltHaltsInPlace :=
  ⟨rfl, fun s => ⟨execHlt_eq s, step_terminal nofun⟩⟩

end Sys2Proof
end

section
/-! The table of checks of 60_exceptions.md R132 against the step: a fetch makes the first checks of the table, the instruction
those on its operands, and where all of them pass only the sequential advance can fault (40_fetch_execute.md R78). -/

namespace Sys2Proof.Machine

open Sys2Proof Sys2Proof.Safety

/-! ### The table, by where a check is made -/

/-- The checks 3 to 7 of R132's table, which a fetched instruction makes on its operands `a` and `b`. -/
def operandChecks (m : Op) (a b : Byte) (s : State) : Option FaultCause :=
  if 1 ≤ registerOperands m ∧ 7 < a.toNat then some (.invalidRegister a)
  else if registerOperands m = 2 ∧ 7 < b.toNat then some (.invalidRegister b)
  else if m = .call ∧ s.pc.toNat + 2 = 256 then some (.invalidAddress 256)
  else if (m = .pop ∨ m = .ret) ∧ 0xF4 ≤ s.sp.toNat then some (.stackUnderflow s.sp)
  else if m = .div ∧ s.getReg (Fin.ofNat 8 b.toNat) = 0#8 then some (.divisionByZero (Fin.ofNat 8 b.toNat))
  else none

section Table
variable {s : State} {m : Op}

theorem checkBeforeWrites_unknown (h : decodeOpcode (s.mem.read s.pc.toNat) = none) :
    checkBeforeWrites s = some (.unknownInstruction (s.mem.read s.pc.toNat)) := by
  simp only [checkBeforeWrites, h]

theorem checkBeforeWrites_truncated (h : decodeOpcode (s.mem.read s.pc.toNat) = some m)
    (hpc : 256 ≤ s.pc.toNat + operandCount m) : checkBeforeWrites s = some (.invalidAddress 256) := by
  have hcount := operandCount_le m
  have hbyte : s.pc.toNat < 256 := s.pc.isLt
  simp only [checkBeforeWrites, h]
  by_cases hfirst : s.pc.toNat + 1 = 256
  · rw [if_pos ⟨by omega, hfirst⟩]
  · rw [if_neg fun bad => hfirst bad.2, if_pos (by omega)]

theorem checkBeforeWrites_fetched (h : decodeOpcode (s.mem.read s.pc.toNat) = some m)
    (hpc : s.pc.toNat + operandCount m < 256) :
    checkBeforeWrites s = operandChecks m (s.mem.read (s.pc.toNat + 1)) (s.mem.read (s.pc.toNat + 2)) s := by
  simp only [checkBeforeWrites, h]
  rw [if_neg (by omega), if_neg (by omega)]
  rfl

theorem advancesPast255_iff (hm : s.mem.read s.pc.toNat = opcodeByte m) :
    advancesPast255 s = true ↔ advances m = true ∧ s.pc.toNat + operandCount m + 1 = 256 := by
  simp [advancesPast255, hm]

end Table

/-- A mnemonic makes no use of an operand byte it lacks. -/
theorem assemble_operands (s : State) (m : Op) :
    assemble m (operandA s m) (operandB s m) =
      assemble m (s.mem.read (s.pc.toNat + 1)) (s.mem.read (s.pc.toNat + 2)) := by
  cases m <;> rfl

/-- The register the table names for DIV's divisor is the one the instruction reads. -/
theorem tableRegister_eq {b : Byte} (hb : b.toNat < 8) : Fin.ofNat 8 b.toNat = ⟨b.toNat, hb⟩ :=
  Fin.ext (Nat.mod_eq_of_lt hb)

theorem registerOperandBytes_assemble (m : Op) (a b : Byte) :
    registerOperandBytes (assemble m a b) = [a, b].take (registerOperands m) := by
  cases m <;> rfl

theorem assemble_opcode (m : Op) (a b : Byte) : (assemble m a b).opcode = opcodeByte m :=
  congrArg opcodeByte (assemble_op m a b)

/-! ### A check that fails -/

section Operands
variable {m : Op} {a b : Byte} {s : State}

/-- The first check on the operands that fails is raised on the state before the instruction. -/
theorem exec_of_operandChecks_some {c : FaultCause} (hpc : s.pc.toNat + operandCount m < 256)
    (h : operandChecks m a b s = some c) : exec (assemble m a b) s = .next (s.raise c (opcodeByte m)) := by
  have hregs := registerOperandBytes_assemble m a b
  unfold operandChecks at h
  split_ifs at h with hfirst hsecond hcall hstack hdiv <;> cases h
  · obtain ⟨hcount, ha⟩ := hfirst
    rw [← assemble_opcode m a b]
    refine exec_firstOperand_invalid ?_ ha s
    obtain ⟨k, hk⟩ := Nat.exists_eq_add_of_le' hcount
    rw [hregs, hk]
    rfl
  · obtain ⟨hcount, hb⟩ := hsecond
    have ha : a.toNat < 8 := by omega
    rw [← assemble_opcode m a b]
    exact exec_secondOperand_invalid (by rw [hregs, hcount]; rfl) ha hb s
  · obtain ⟨rfl, hret⟩ := hcall
    have ha : a.toNat < 8 := Nat.lt_of_not_le fun bad => hfirst ⟨by decide, bad⟩
    exact execCall_returnAddress_invalid ha s (by omega)
  · obtain ⟨rfl | rfl, hsp⟩ := hstack
    · have ha : a.toNat < 8 := Nat.lt_of_not_le fun bad => hfirst ⟨by decide, bad⟩
      exact execPop_underflow ha s hsp
    · exact execRet_underflow hsp
  · obtain ⟨rfl, hzero⟩ := hdiv
    have ha : a.toNat < 8 := Nat.lt_of_not_le fun bad => hfirst ⟨by decide, bad⟩
    have hb : b.toNat < 8 := Nat.lt_of_not_le fun bad => hsecond ⟨rfl, bad⟩
    rw [tableRegister_eq hb] at hzero ⊢
    exact execDiv_zero s ha hb (s.getReg_eq _ ▸ hzero)

/-! ### Checks that pass -/

/-- What the checks on the operands say where all of them pass. -/
structure OperandsPass (m : Op) (a b : Byte) (s : State) : Prop where
  first : 1 ≤ registerOperands m → a.toNat < 8
  second : registerOperands m = 2 → b.toNat < 8
  returnAddress : m = .call → s.pc.toNat + 2 ≠ 256
  stack : m = .pop ∨ m = .ret → s.sp.toNat < 0xF4
  divisor : m = .div → s.getReg (Fin.ofNat 8 b.toNat) ≠ 0#8

theorem operandsPass_of_none (h : operandChecks m a b s = none) : OperandsPass m a b s := by
  unfold operandChecks at h
  split_ifs at h with hfirst hsecond hcall hstack hdiv
  constructor
  · exact fun hm => Nat.lt_of_not_le fun bad => hfirst ⟨hm, bad⟩
  · exact fun hm => Nat.lt_of_not_le fun bad => hsecond ⟨hm, bad⟩
  · exact fun hm bad => hcall ⟨hm, bad⟩
  · exact fun hm => Nat.lt_of_not_le fun bad => hstack ⟨hm, bad⟩
  · exact fun hm bad => hdiv ⟨hm, bad⟩

/-- What an instruction does where its checks pass: it ends without a fault, or it has an effect, the same wherever it stands,
and advances. -/
inductive Passes (m : Op) (i : Instr) (s : State) : Prop where
  | ends (hm : advances m = false) (t : State) (h : exec i s = .next t) (hrun : t.run ≠ .faulted)
  | thenAdvances (hm : advances m = true) (u : State) (hrun : u.run = s.run)
      (h : ∀ v, exec i (s.setPc v) = .next ((u.setPc v).advance (opcodeByte m)))

/-- ADD, SUB, MUL, and DIV with a divisor that is not 0, at every `pc`. -/
theorem execAluWrite_passes {i : Instr}
    (hi : (m, i) ∈ [(Op.add, Instr.add a b), (.sub, .sub a b), (.mul, .mul a b), (.div, .div a b)])
    (ha : a.toNat < 8) (hb : b.toNat < 8) (hz : m = .div → s.getReg (Fin.ofNat 8 b.toNat) ≠ 0#8) : Passes m i s := by
  have hm : advances m = true := by
    simp only [List.mem_cons, Prod.mk.injEq, List.not_mem_nil, or_false] at hi
    rcases hi with ⟨rfl, -⟩ | ⟨rfl, -⟩ | ⟨rfl, -⟩ | ⟨rfl, -⟩ <;> rfl
  refine .thenAdvances hm
    (s.setReg ⟨a.toNat, ha⟩ (aluValue m (s.getReg ⟨a.toNat, ha⟩) (s.getReg ⟨b.toNat, hb⟩))) rfl fun v => ?_
  rcases execAluWrite_cases (s.setPc v) a b hi with ⟨bad, -⟩ | ⟨-, bad, -⟩ | ⟨_, _, ⟨hdiv, hzero, -⟩ | ⟨-, e⟩⟩
  · omega
  · omega
  · exact absurd hzero (tableRegister_eq hb ▸ hz hdiv)
  · exact e

/-- CMP with register operands up to 7, at every `pc`. -/
theorem execCmp_passes (ha : a.toNat < 8) (hb : b.toNat < 8) : Passes .cmp (.cmp a b) s := by
  refine .thenAdvances rfl
    (s.driveFlags true (compareFlags (s.getReg ⟨a.toNat, ha⟩) (s.getReg ⟨b.toNat, hb⟩))) rfl fun v => ?_
  rcases execCmp_cases (s.setPc v) a b with ⟨bad, -⟩ | ⟨-, bad, -⟩ | ⟨_, _, e⟩
  · omega
  · omega
  · exact e

/-- Every instruction of a RUNNING machine whose checks on its operands pass. -/
theorem exec_passes (hrun : s.run = .running) (hpc : s.pc.toNat + operandCount m < 256) (h : OperandsPass m a b s) :
    Passes m (assemble m a b) s := by
  have goesOn {t : State} (ht : t.run = s.run) : t.run ≠ .faulted := by rw [ht, hrun]; nofun
  obtain ⟨hfirst, hsecond, hret, hsp, hdiv⟩ := h
  cases m with
  | hlt => exact .ends rfl _ rfl nofun
  | ldi =>
    have ha := hfirst le_rfl
    exact .thenAdvances rfl { s with regs := s.regs.set ⟨a.toNat, ha⟩ b } rfl fun v => execLdi_ok ha (s.setPc v) b
  | prn =>
    have ha := hfirst le_rfl
    exact .thenAdvances rfl { s with out := s.out ++ [s.regs.get ⟨a.toNat, ha⟩] } rfl fun v => execPrn_ok ha (s.setPc v)
  | add | sub | mul | div =>
    exact execAluWrite_passes (by simp [assemble]) (hfirst (by decide)) (hsecond rfl) hdiv
  | cmp => exact execCmp_passes (hfirst (by decide)) (hsecond rfl)
  | push =>
    have ha := hfirst le_rfl
    exact .thenAdvances rfl (s.decSp.store (spDec s.sp) ((s.regs.set 7 (spDec s.sp)).get ⟨a.toNat, ha⟩)) rfl fun v =>
      execPush_ok ha (s.setPc v)
  | pop =>
    have ha := hfirst le_rfl
    exact .thenAdvances rfl { s with regs := s.regs.afterPop ⟨a.toNat, ha⟩ (s.mem.read s.sp.toNat) } rfl fun v =>
      execPop_ok ha (s.setPc v) (hsp (.inl rfl))
  | call =>
    have hfits : s.pc.toNat + 1 < 256 := hpc
    have hroom : s.pc.toNat ≤ 253 := by have := hret rfl; omega
    exact .ends rfl _ (execCall_completes (hfirst le_rfl) s hroom) (goesOn rfl)
  | ret => exact .ends rfl _ (execRet_ok (hsp (.inr rfl))) (goesOn rfl)
  | jmp => exact .ends rfl _ (execJmp_ok (hfirst le_rfl) s) (goesOn rfl)

end Operands

/-! ### The advance, the last check -/

section Passes
variable {m : Op} {i : Instr} {s : State}

/-- Where the checks pass and the advance, if there is one, ends inside memory, the instruction does not fault. -/
theorem Passes.completes (h : Passes m i s) (hrun : s.run = .running) (hpc : s.pc.toNat + operandCount m < 256)
    (hadv : ¬ (advances m = true ∧ s.pc.toNat + operandCount m + 1 = 256)) :
    ∃ t, exec i s = .next t ∧ t.run ≠ .faulted := by
  cases h with
  | ends _ t hexec ht => exact ⟨t, hexec, ht⟩
  | thenAdvances hm u hu hexec =>
    have hfits : s.pc.toNat + operandCount m < 255 := by
      have : s.pc.toNat + operandCount m + 1 ≠ 256 := fun bad => hadv ⟨hm, bad⟩
      omega
    refine ⟨_, hexec s.pc, ?_⟩
    rw [advance_opcodeByte_ok (s := u.setPc s.pc) hfits, State.setPc_run, hu, hrun]
    nofun

/-- Where the checks pass and the advance ends at 256, it faults, and the rest is what the instruction leaves at address 0,
where its advance does not fault. -/
theorem Passes.advanceFaults (h : Passes m i s) (hm : advances m = true)
    (hpc : s.pc.toNat + operandCount m + 1 = 256) :
    ∃ u, exec i (s.setPc 0#8) = .next u ∧ u.run = s.run ∧
      exec i s = .next (State.raise { u with pc := s.pc } (.invalidAddress 256) (opcodeByte m)) := by
  cases h with
  | ends hno => exact absurd hm (Bool.eq_false_iff.1 hno)
  | thenAdvances _ u hu hexec =>
    have hcount := operandCount_le m
    have hfits : (u.setPc 0#8).pc.toNat + operandCount m < 255 := by rw [State.setPc_pc, BitVec.toNat_zero]; omega
    refine ⟨_, (hexec 0#8).trans (congrArg _ (advance_opcodeByte_ok hfits)), hu, ?_⟩
    exact (hexec s.pc).trans (congrArg _ (advance_opcodeByte_fault (s := u.setPc s.pc) (Nat.succ.inj hpc)))

end Passes

/-! ### The step -/

section Step
variable {s : State}

/-- Every step answers a next state: every error of this hardware is one (R130). -/
theorem step_next (s : State) : ∃ t, step s = .next t := by
  rcases step_cases s with ⟨-, e⟩ | ⟨-, _, -, e⟩ | ⟨-, i, -, e⟩
  · exact ⟨_, e⟩
  · exact ⟨_, e⟩
  · rw [e]
    exact exec_next i s

/-- The first of the checks 1 to 7 that fails is raised on the state before the step. -/
theorem step_of_check_fails {c : FaultCause} (hrun : s.run = .running) (h : checkBeforeWrites s = some c) :
    step s = .next (s.raise c (s.mem.read s.pc.toNat)) := by
  rcases fetch_cases s with ⟨hdec, e⟩ | ⟨m, hdec, hpc, e⟩ | ⟨m, hdec, hpc, e⟩
  · rw [checkBeforeWrites_unknown hdec] at h
    cases h
    exact step_fetchFault hrun e
  · rw [checkBeforeWrites_truncated hdec hpc] at h
    cases h
    exact step_fetchFault hrun e
  · rw [checkBeforeWrites_fetched hdec hpc] at h
    rw [step_fetched hrun e, assemble_operands, decodeOpcode_some hdec]
    exact exec_of_operandChecks_some hpc h

/-- Where none of the checks 1 to 7 fails, the step executes an instruction whose bytes lie in memory and whose checks
pass. -/
theorem step_of_checks_pass (hrun : s.run = .running) (h : checkBeforeWrites s = none) :
    ∃ m i, s.mem.read s.pc.toNat = opcodeByte m ∧ s.pc.toNat + operandCount m < 256 ∧ fetch s = .ok i ∧
      step s = exec i s ∧ Passes m i s := by
  rcases fetch_cases s with ⟨hdec, -⟩ | ⟨m, hdec, hpc, -⟩ | ⟨m, hdec, hpc, e⟩
  · cases (checkBeforeWrites_unknown hdec).symm.trans h
  · cases (checkBeforeWrites_truncated hdec hpc).symm.trans h
  · rw [checkBeforeWrites_fetched hdec hpc] at h
    rw [assemble_operands] at e
    exact ⟨m, _, decodeOpcode_some hdec, hpc, e, step_fetched hrun e, exec_passes hrun hpc (operandsPass_of_none h)⟩

/-- Where none of the checks 1 to 8 fails, the step does not fault. -/
theorem step_completes (hrun : s.run = .running) (h : checkBeforeWrites s = none) (hadv : advancesPast255 s = false) :
    ∃ t, step s = .next t ∧ t.run ≠ .faulted := by
  obtain ⟨m, i, hm, hpc, -, hstep, hpass⟩ := step_of_checks_pass hrun h
  rw [hstep]
  exact hpass.completes hrun hpc fun bad => Bool.false_ne_true (hadv.symm.trans ((advancesPast255_iff hm).2 bad))

/-- Where check 8 is the first that fails, the step raises InvalidAddress(256) at the instruction, and the rest is what the same
instruction leaves at address 0. -/
theorem step_advanceFaults (hrun : s.run = .running) (h : checkBeforeWrites s = none) (hadv : advancesPast255 s = true) :
    ∃ m, s.mem.read s.pc.toNat = opcodeByte m ∧ advances m = true ∧ s.pc.toNat + operandCount m + 1 = 256 ∧
      ∃ i u, fetch s = .ok i ∧ exec i (s.setPc 0#8) = .next u ∧ u.run = .running ∧
        step s = .next (State.raise { u with pc := s.pc } (.invalidAddress 256) (opcodeByte m)) := by
  obtain ⟨m, i, hm, -, hfetch, hstep, hpass⟩ := step_of_checks_pass hrun h
  obtain ⟨hadvances, hend⟩ := (advancesPast255_iff hm).1 hadv
  obtain ⟨u, hexec, hu, hfault⟩ := hpass.advanceFaults hadvances hend
  exact ⟨m, hm, hadvances, hend, i, u, hfetch, hexec, hu.trans hrun, hstep.trans hfault⟩

end Step

end Sys2Proof.Machine
end

section
/-! The statements about errors (60_exceptions.md). -/

namespace Sys2Proof

open Sys2Proof.Machine Sys2Proof.Safety

/-- Settles O18, by induction on the number of steps, each of which answers a next state. -/
theorem runsNeverStopOutsideTheState : Obligations.RunsNeverStopOutsideTheState := by
  intro n
  induction n with
  | zero => exact fun s => ⟨s, rfl⟩
  | succ n ih =>
    intro s
    obtain ⟨t, hstep⟩ := step_next s
    rw [run_succ hstep]
    exact ih t

/-- Settles O44: a check that fails is raised on the state before the step; where all pass, a step that faults does so at the
advance. -/
theorem faultsArePrecise : Obligations.FaultsArePrecise := by
  intro s t hrun h hfault
  split
  next c hc =>
    cases (step_of_check_fails hrun hc).symm.trans h
    rfl
  next hc =>
    cases hadv : advancesPast255 s with
    | false =>
      obtain ⟨t', hstep, hno⟩ := step_completes hrun hc hadv
      cases hstep.symm.trans h
      exact absurd hfault hno
    | true =>
      obtain ⟨m, hm, hadvances, hend, i, u, hfetch, hexec, hu, hstep⟩ := step_advanceFaults hrun hc hadv
      cases hstep.symm.trans h
      exact ⟨m, hm, hadvances, hend, i, u, hfetch, hexec, hu, rfl⟩

/-- Settles O45: the checks 1 to 7 are raised in the table's order, and where they pass the advance decides. -/
theorem firstFailedCheckIsReported : Obligations.FirstFailedCheckIsReported := by
  intro s hrun
  rw [firstFailedCheck]
  cases hc : checkBeforeWrites s with
  | some c => exact ⟨_, step_of_check_fails hrun hc, rfl, rfl⟩
  | none =>
    cases hadv : advancesPast255 s with
    | false => exact step_completes hrun hc hadv
    | true =>
      obtain ⟨m, hm, -, -, i, u, -, -, -, hstep⟩ := step_advanceFaults hrun hc hadv
      exact ⟨_, hstep, rfl, by rw [hm]; rfl⟩

/-- Settles O12: FAULTED is terminal, and nine bits hold what each kind records. -/
theorem raiseWritesTheRecord : Obligations.RaiseWritesTheRecord := by
  have widened (x : Byte) : (x.setWidth 9).toNat = x.toNat := BitVec.toNat_setWidth_of_le (by decide)
  exact ⟨fun s c ir => ⟨rfl, step_terminal nofun⟩,
    fun x => ⟨⟨rfl, rfl⟩, ⟨rfl, widened x⟩, ⟨rfl, widened x⟩, ⟨rfl, widened x⟩⟩,
    fun rb => ⟨rfl, Nat.mod_eq_of_lt (rb.isLt.trans (by decide))⟩,
    fun op => ⟨rfl, BitVec.toNat_setWidth_of_le (by decide)⟩⟩

end Sys2Proof
end

section
/-! A program as the host loads it: where its first instruction stands, and a program that does not fit
(70_reset_and_hazards.md R143, R146, R147). -/

namespace Sys2Proof.Machine

open Sys2Proof

/-- Bytes that run past address 255 are refused: MemWrite refuses address 256 at the latest. -/
theorem loadFrom_tooManyBytes (bytes : List Byte) : ∀ (a : Nat) (s : State), a ≤ 256 → 256 < a + bytes.length →
    loadFrom a s bytes = .error .tooManyBytes := by
  induction bytes with
  | nil => exact fun a s ha hlen => absurd hlen (Nat.not_lt.2 ha)
  | cons b rest ih =>
    intro a s ha hlen
    rw [List.length_cons] at hlen
    rcases Nat.lt_or_ge a 256 with hlt | hge
    · simp only [loadFrom, memWrite_ok b hlt]
      exact ih (a + 1) _ hlt (by omega)
    · simp only [loadFrom, memWrite_error b hge]

/-- In a memory that holds a program from `pc = 0` on, the program's first instruction stands at `pc`. -/
theorem HoldsAtPc.of_read {s : State} {i : Instr} {rest : List Byte} (hpc : s.pc = 0#8)
    (hlen : (encode i ++ rest).length ≤ 256) (hread : ∀ a, s.mem.read a = (encode i ++ rest).getD a 0#8) :
    HoldsAtPc s i := by
  intro k b hb
  have hk : k < (encode i).length := (List.getElem?_eq_some_iff.1 hb).1
  have haddr : s.pc.toNat + k = k := by rw [hpc, BitVec.toNat_zero, Nat.zero_add]
  rw [List.length_append] at hlen
  rw [haddr, hread, List.getD_eq_getElem?_getD, List.getElem?_append_left hk, hb]
  exact ⟨by omega, rfl⟩

end Sys2Proof.Machine
end

section
/-! The statement about the loaded program (70_reset_and_hazards.md). -/

namespace Sys2Proof

open Sys2Proof.Machine

/-- Settles O56: a program that fits is read back from memory over the reset state, whose `pc` is 0, so the first fetch
answers its first instruction. -/
theorem loadedProgramStarts : Obligations.LoadedProgramStarts := by
  obtain ⟨-, hpc, -, hrun, -, -, hloads⟩ := resetValues
  refine ⟨fun i rest hlen => ?_, fun bytes hlen => loadFrom_tooManyBytes bytes 0 State.reset (by omega) (by omega)⟩
  obtain ⟨s, hload, hframe, hread⟩ := hloads _ hlen
  have hspc : s.pc = 0#8 := by rw [hframe]; exact hpc
  have hsrun : s.run = .running := by rw [hframe]; exact hrun
  exact ⟨s, hload, step_fetched hsrun (HoldsAtPc.of_read hspc hlen hread).fetch_eq⟩

end Sys2Proof
end
